-- ==== Sys2Proof/Word.lean ====
section
/-! DEFINITION. The value types of the block: bytes, byte strings, field names and the 128-bit register
(spec 00_scope R7, R8, R11 to R15). Every value is unsigned (R13). -/

namespace Sys2Proof

/-- An 8-bit byte; bit 7 is the most significant (R11). -/
abbrev Byte := BitVec 8

/-- A byte string, first byte first (R12, R15). -/
abbrev ByteString := List Byte

/-- A field name, compared as an exact byte string (R84). -/
abbrev FieldName := ByteString

/-- The 128-bit configuration register, bit 0 least significant (R7, R11). -/
abbrev Reg := BitVec 128

/-- `"TEXT"` of R15: the ASCII codes of the characters, with no terminator. -/
def ascii (text : String) : ByteString :=
  text.toList.map fun c => BitVec.ofNat 8 c.toNat

end Sys2Proof
end

