-- ==== Sys2Proof/Config.lean ====
section
/-! DEFINITION. The parameters of the block (spec 00_scope R9, R10; 10_state R33 to R38) and the one
catalog the spec writes out, the fixture FIX (95_test_vectors section 0). -/

namespace Sys2Proof

/-- The validation policy MODE (R38). -/
inductive Mode where
  | clamp
  | strict
deriving DecidableEq, Repr

/-- TOKEN_PRIORITY: which token decides a line that holds both (R10, R167). -/
inductive TokenPriority where
  | successFirst
  | errorFirst
deriving DecidableEq, Repr

/-- A FieldSpec: unique name, number of the field's most significant bit, width in bits (R33). -/
structure FieldSpec where
  name : FieldName
  off : Nat
  width : Nat
deriving DecidableEq, Repr

/-- The parameters of R10. Fixed for a run: no step of the machine changes them (R35, R38). -/
structure Params where
  /-- CATALOG, an ordered list of FieldSpec (R33, OPEN: D2). -/
  catalog : List FieldSpec
  /-- The configuration input of MODE; `none` when none is given (R38, R230). -/
  modeInput : Option Mode
  /-- TOKEN_PRIORITY (R167, OPEN: D12). -/
  tokenPriority : TokenPriority
  /-- LINE_BUF_CAP; `none` is unbounded (R172, OPEN: D24). -/
  lineBufCap : Option Nat
  /-- POLL_INTERVAL in microseconds; only the host's conversion of a duration reads it (R86, R242). -/
  pollInterval : Nat
deriving DecidableEq, Repr

namespace Config

/-- MAX_FIELD_WIDTH (R9). -/
def maxFieldWidth : Nat := 7

/-- NBYTES (R8). -/
def nBytes : Nat := 16

/-- REG_WIDTH (R7). -/
def regWidth : Nat := 128

/-- The three required catalog entries (R36, condition W6). -/
def requiredEntries : List FieldSpec :=
  [⟨ascii "_CSH_EN_8_", 127, 1⟩, ⟨ascii "_TEST_ADD_", 11, 4⟩, ⟨ascii "_TMUX_SEL_", 7, 4⟩]

/-- The two names condition W7 requires without a position (R34). -/
def requiredNames : List FieldName :=
  [ascii "_CSH_EN_1_", ascii "_PI_DELAY_CTRL3_"]

/-- The fixture catalog FIX of 95_test_vectors section 0: 30 fields, widths summing to 128. It is NOT
this hardware's catalog, which no source gives (N1). DESIGN CHOICE as the reset value of the parameter:
log entry 2. -/
def fixCatalog : List FieldSpec :=
  [⟨ascii "_CSH_EN_8_", 127, 1⟩, ⟨ascii "_CSH_EN_7_", 126, 1⟩, ⟨ascii "_CSH_EN_6_", 125, 1⟩,
   ⟨ascii "_CSH_EN_5_", 124, 1⟩, ⟨ascii "_CSH_EN_4_", 123, 1⟩, ⟨ascii "_CSH_EN_3_", 122, 1⟩,
   ⟨ascii "_CSH_EN_2_", 121, 1⟩, ⟨ascii "_CSH_EN_1_", 120, 1⟩,
   ⟨ascii "FX_W7", 119, 7⟩, ⟨ascii "FX_W2", 112, 2⟩, ⟨ascii "FX_W3", 110, 3⟩,
   ⟨ascii "_PI_DELAY_CTRL3_", 107, 6⟩] ++
  [⟨ascii "PAD_1", 101, 6⟩, ⟨ascii "PAD_2", 95, 6⟩, ⟨ascii "PAD_3", 89, 6⟩, ⟨ascii "PAD_4", 83, 6⟩,
   ⟨ascii "PAD_5", 77, 6⟩, ⟨ascii "PAD_6", 71, 6⟩, ⟨ascii "PAD_7", 65, 6⟩, ⟨ascii "PAD_8", 59, 6⟩,
   ⟨ascii "PAD_9", 53, 6⟩, ⟨ascii "PAD_10", 47, 6⟩, ⟨ascii "PAD_11", 41, 6⟩, ⟨ascii "PAD_12", 35, 6⟩,
   ⟨ascii "PAD_13", 29, 6⟩, ⟨ascii "PAD_14", 23, 6⟩, ⟨ascii "PAD_15", 17, 6⟩] ++
  [⟨ascii "_TEST_ADD_", 11, 4⟩, ⟨ascii "_TMUX_SEL_", 7, 4⟩, ⟨ascii "FX_LOW", 3, 4⟩]

/-- The parameters `State.reset` is built from: FIX, no MODE input (so Clamp, R38), SuccessFirst (R167),
an unbounded line buffer (R172), 10 ms (R242). The catalog is a DESIGN CHOICE: log entry 2. -/
def defaultParams : Params :=
  { catalog := fixCatalog, modeInput := none, tokenPriority := .successFirst,
    lineBufCap := none, pollInterval := 10000 }

end Config

end Sys2Proof
end

