-- ==== Sys2Proof/Machine/Catalog.lean ====
section
/-! DEFINITION. The catalog self-check and the conditions on the catalog parameter (spec 10_state R33 to
R36, 40_catalog R100 to R105). -/

namespace Sys2Proof

/-- `max(f) = 2^width − 1` (R33). -/
def FieldSpec.max (f : FieldSpec) : Nat := 2 ^ f.width - 1

/-- `lo(f) = off − width + 1`, an integer: it is below 0 where W2 fails (R33, R34). -/
def FieldSpec.lo (f : FieldSpec) : Int := (f.off : Int) - (f.width : Int) + 1

end Sys2Proof

namespace Sys2Proof.Machine

/-- The violation report (R102). -/
structure Report where
  badWidth : List FieldName
  outOfRange : List FieldName
  gaps : List Nat
  overlaps : List Nat
  dupNames : List FieldName
deriving DecidableEq, Repr

/-- W1 (R34). -/
def widthOk (f : FieldSpec) : Bool := decide (1 ≤ f.width)

/-- W2: `off ≤ 127` and `lo(f) ≥ 0` (R34). -/
def inRange (f : FieldSpec) : Bool := decide (f.off ≤ 127) && decide (0 ≤ f.lo)

/-- Position `i` lies in `range(f)`: `lo(f) ≤ i ≤ off` as integers, and the width counts (R33, R100). -/
def covers (f : FieldSpec) (i : Nat) : Bool :=
  widthOk f && decide (f.lo ≤ (i : Int)) && decide (i ≤ f.off)

/-- The field counts for position `i`: its range contains `i`, and the field is in range. DEDUCED, log
entry 8: the rule's corner cases and vector V-K3 say that an out-of-range field's positions are not
counted, where its pseudocode would count them. -/
def occupies (f : FieldSpec) (i : Nat) : Bool := inRange f && covers f i

/-- `cnt[i]`: how many entries of the catalog count for position `i` (R100, R101). Two identical entries
count as two, where the pseudocode takes the size of a set of fields: DESIGN CHOICE, log entry 26. -/
def coverCount (catalog : List FieldSpec) (i : Nat) : Nat :=
  (catalog.filter fun f => occupies f i).length

/-- The names of a list, each once, in order of first occurrence. -/
def firstOccurrences : List FieldName → List FieldName
  | [] => []
  | n :: ns => n :: (firstOccurrences ns).filter fun m => decide (m ≠ n)

/-- The names borne by two or more fields, in order of first occurrence (R100, R102). -/
def duplicateNames (catalog : List FieldSpec) : List FieldName :=
  let names := catalog.map FieldSpec.name
  (firstOccurrences names).filter fun n => decide (2 ≤ names.count n)

/-- The five lists of R100, in the orders of R102. -/
def violations (catalog : List FieldSpec) : Report :=
  { badWidth := (catalog.filter fun f => !widthOk f).map FieldSpec.name
    outOfRange := (catalog.filter fun f => widthOk f && !inRange f).map FieldSpec.name
    gaps := (List.range Config.regWidth).filter fun i => decide (coverCount catalog i = 0)
    overlaps := (List.range Config.regWidth).filter fun i => decide (2 ≤ coverCount catalog i)
    dupNames := duplicateNames catalog }

/-- A report with no violation: its five lists are empty (R102). -/
def Report.clean (r : Report) : Bool :=
  r.badWidth.isEmpty && r.outOfRange.isEmpty && r.gaps.isEmpty && r.overlaps.isEmpty &&
    r.dupNames.isEmpty

/-- CAT_STATUS: Valid or Invalid(report) (R39). -/
inductive CatStatus where
  | valid
  | invalid (report : Report)
deriving DecidableEq, Repr

/-- The verdict of CHECK on a catalog (R100). -/
def checkCatalog (catalog : List FieldSpec) : CatStatus :=
  let r := violations catalog
  if r.clean then .valid else .invalid r

/-- W5: every width is at most MAX_FIELD_WIDTH (R9, R34). -/
def meetsW5 (catalog : List FieldSpec) : Bool :=
  catalog.all fun f => decide (f.width ≤ Config.maxFieldWidth)

/-- W6: the required entries are there exactly as stated (R34, R36). -/
def meetsW6 (catalog : List FieldSpec) : Bool :=
  Config.requiredEntries.all fun f => decide (f ∈ catalog)

/-- W7: the two further names are there (R34). -/
def meetsW7 (catalog : List FieldSpec) : Bool :=
  Config.requiredNames.all fun n => decide (n ∈ catalog.map FieldSpec.name)

/-- The conditions the model checks when it is configured (R34). -/
def admissible (catalog : List FieldSpec) : Bool :=
  meetsW5 catalog && meetsW6 catalog && meetsW7 catalog

/-- `fieldAt(i)`: the field that owns position `i` (R70, R105). -/
def fieldAt (catalog : List FieldSpec) (i : Nat) : Option FieldSpec :=
  catalog.find? fun f => occupies f i

end Sys2Proof.Machine
end

