-- ==== Sys2Proof/Syntax.lean ====
section
/-! DEFINITION. The instructions: one constructor for every row of spec/opcode_table.json, and the three
encoding spaces they are read from (spec 30_encoding R80). -/

namespace Sys2Proof

/-- One field's input: a natural number of any size, or malformed (R120). -/
inductive FieldIn where
  | val (n : Nat)
  | malformed
deriving DecidableEq, Repr

/-- The FieldValues operand of ASSIGN: pairs (name, input) (R84). -/
abbrev FieldValues := List (FieldName × FieldIn)

/-- One constructor per row of spec/opcode_table.json. HOST_CMD rows are host commands (R82, R83),
WIRE_TX rows the frames on the TX stream (R88, R89), WIRE_RX_LINE rows the response lines that hold a
token (R93, R167), each carrying its whole line without the LF. -/
inductive Instr where
  /-- CHECK, op 0x01 (R100). -/
  | check
  /-- ASSIGN values, op 0x02 (R123). -/
  | assign (values : FieldValues)
  /-- DECODE data, op 0x03 (R128). -/
  | decode (data : ByteString)
  /-- TRANSFER data, timeout, op 0x04 (R161). -/
  | transfer (data : ByteString) (timeout : Nat)
  /-- RESET timeout, op 0x05 (R162). -/
  | reset (timeout : Nat)
  /-- A reserved host opcode (R83). -/
  | illegal (op : Byte)
  /-- The 18-byte DATA frame on TX (R88). -/
  | frameData (data : ByteString)
  /-- The 1-byte RESET frame on TX (R89). -/
  | frameReset
  /-- A response line holding "TRANSFER_COMPLETE" (R93, R167). -/
  | tokenTransferComplete (line : ByteString)
  /-- A response line holding "RESET_COMPLETE" (R93, R167). -/
  | tokenResetComplete (line : ByteString)
  /-- A response line holding "ERROR" (R93, R167). -/
  | tokenError (line : ByteString)
deriving DecidableEq, Repr

/-- A host command record: the op byte and the operands of R82. A command reads only the operands its
row of R82 names. DESIGN CHOICE (the spec gives operand types, no layout): log entry 9. -/
structure Command where
  op : Byte
  values : FieldValues := []
  data : ByteString := []
  timeout : Nat := 0
deriving DecidableEq, Repr

/-- What is decoded, in the encoding space it stands in; the three spaces never mix (R80). -/
inductive Encoded where
  /-- a record on the host command port -/
  | host (c : Command)
  /-- the bytes of the TX stream from a frame boundary on -/
  | wire (bytes : ByteString)
  /-- a response line, the bytes before its LF -/
  | line (bytes : ByteString)
deriving DecidableEq, Repr

end Sys2Proof
end

