-- ==== Sys2Proof/Machine/Formats.lean ====
section
/-! DEFINITION. The byte formats of the wire (spec 30_encoding R88 to R94): the two frames, the line
terminator, the three tokens and the substring search. -/

namespace Sys2Proof.Machine

/-- LF ends a response line (R15, R92; the code is marked general knowledge by the spec, log entry 16). -/
def lf : Byte := 0x0A

/-- The start delimiter of the DATA frame, ASCII less-than (R88). -/
def startDelimiter : Byte := 0x3C

/-- The end delimiter of the DATA frame, ASCII greater-than (R88). -/
def endDelimiter : Byte := 0x3E

/-- The one byte of the RESET frame, ASCII R (R89). -/
def resetByte : Byte := 0x52

/-- The DATA frame: start delimiter, the data unescaped, end delimiter (R88, R90). -/
def dataFrame (data : ByteString) : ByteString :=
  [startDelimiter] ++ data ++ [endDelimiter]

/-- The RESET frame (R89). -/
def resetFrame : ByteString := [resetByte]

/-- How long the frame is that starts with this byte (R91). -/
def frameLength (b : Byte) : Option Nat :=
  if b = startDelimiter then some 18 else if b = resetByte then some 1 else none

/-- The success token of TRANSFER (R93). -/
def tokTransferComplete : ByteString := ascii "TRANSFER_COMPLETE"

/-- The success token of RESET (R93). -/
def tokResetComplete : ByteString := ascii "RESET_COMPLETE"

/-- The error token of both operations (R93). -/
def tokError : ByteString := ascii "ERROR"

/-- `contains(line, tok)`: `tok` occurs as a contiguous substring of `line` (R14, R94). -/
def containsToken (tok : ByteString) : ByteString → Bool
  | [] => tok.isPrefixOf []
  | b :: bs => tok.isPrefixOf (b :: bs) || containsToken tok bs

end Sys2Proof.Machine
end

