-- ==== Sys2Proof/Machine/State.lean ====
section
/-! DEFINITION. The state of the block as plain data (spec 10_state R30), the records it returns
(30_encoding R81, 60_exceptions R201, R208), the events its environment chooses (00_scope R6) and its
reset state (10_state R46, 70_reset_and_hazards R230). -/

namespace Sys2Proof.Machine

/-- P_STATE, the framer state (R40). -/
inductive PState where
  | idle
  | sent
  | awaitingResponse
  | completedSuccess
  | completedError (msg : ByteString)
  | timedOut
deriving DecidableEq, Repr

/-- P_OP, the operation the framer runs or last ran (R41). -/
inductive POp where
  | none
  | transfer
  | reset
deriving DecidableEq, Repr

/-- The reasons of the spec's refusals (R208). A refusal of the spec is a next state with REFUSED set,
not a stop of the model: log entry 6. -/
inductive RefuseReason where
  | illegalCommand
  | duplicateKey
  | badOperandLength
  | halted
  | busy
  | lineOverflow
  | badCatalogParameter
deriving DecidableEq, Repr

/-- The payload of a result record (R82, R201). -/
inductive Payload where
  /-- nothing: success of TRANSFER and RESET, TimeoutError (R82, R206) -/
  | empty
  /-- CHECK passed (R100) -/
  | valid
  /-- CHECK failed (R100, R204) -/
  | invalid (report : Report)
  /-- ASSIGN's bytes and warnings (R123) -/
  | packed (bytes : ByteString) (warnings : List FieldName)
  /-- DECODE's fields in catalog order (R128) -/
  | fields (values : List (FieldName × Nat))
  /-- OutOfRangeError (R202) -/
  | outOfRange (field : FieldName) (value max : Nat)
  /-- MalformedInputError (R203) -/
  | malformedInput (field : FieldName)
  /-- ProtocolError: the whole line, without its LF (R205) -/
  | message (line : ByteString)
deriving DecidableEq, Repr

/-- A result record (R81). -/
structure Result where
  status : Byte
  payload : Payload
deriving DecidableEq, Repr

/-- What the host gets back from a step: a result record, or the model's refusal. -/
inductive Response where
  | result (r : Result)
  | refused (reason : RefuseReason)
deriving DecidableEq, Repr

/-- The five agents (R6). -/
inductive Agent where
  | host
  | packer
  | framer
  | peer
  | clock
deriving DecidableEq, Repr

/-- One event of the environment's schedule (R6, R175, R178). -/
inductive Event where
  /-- the host presents a command record (R81) -/
  | command (c : Command)
  /-- the framer takes its next enabled step (R164, R165) -/
  | framer
  /-- the peer takes `n` bytes from the front of TX (R44, R175) -/
  | peerTake (n : Nat)
  /-- the peer takes the one whole frame at the front of TX (R64, R91, R175) -/
  | peerFrame
  /-- the peer appends bytes to RX (R44, R175) -/
  | peerSend (bytes : ByteString)
  /-- one poll interval has elapsed (R168) -/
  | tick
  /-- the block reset (R230) -/
  | blockReset
deriving DecidableEq, Repr

/-- The state record of R30, with the parameters it is run under and two fields of the model's own. -/
structure State where
  /-- the parameters (R10, R33); no step changes them: log entry 1 -/
  params : Params
  /-- MODE (R38) -/
  mode : Mode
  /-- CAT_STATUS (R39) -/
  catStatus : CatStatus
  /-- P_STATE (R40) -/
  pState : PState
  /-- P_OP (R41) -/
  pOp : POp
  /-- LINEBUF (R42) -/
  lineBuf : ByteString
  /-- ELAPSED (R43) -/
  elapsed : Nat
  /-- TIMEOUT_T (R43) -/
  timeoutT : Nat
  /-- TX, oldest byte first (R44) -/
  tx : ByteString
  /-- RX, oldest byte first (R44) -/
  rx : ByteString
  /-- REFUSED (R45) -/
  refused : Bool
  /-- the MODEL's own: what the latest step returned to the host, if anything (R81): log entry 5 -/
  response : Option Response
  /-- the MODEL's own: the events the environment has chosen, next first (R6): log entry 4 -/
  events : List Event
deriving DecidableEq, Repr

/-- No situation of the spec stops the block with a fault: an error is a result record (R200) and a
refusal is a mark in the state (R208). The type has no constructor. -/
inductive Fault where
deriving DecidableEq, Repr

/-- Why a step has no meaning in the model. The spec's own refusals are not among these: they are next
states (log entry 6). -/
inductive Refusal where
  /-- Raised by `exec` alone, for an instruction whose meaning is not written yet; safe, the run stops.
  No instruction is left in that case. -/
  | notModelled (mnemonic : String)
deriving DecidableEq, Repr

/-- The state a block reset leaves under parameters `p` with the streams as the environment holds them
(R46, R230), at the start of a run: REFUSED is false unless the catalog parameter itself is refused
BadCatalogParameter (R34, R208; log entry 13). -/
def State.boot (p : Params) (tx rx : ByteString) : State :=
  { params := p
    mode := p.modeInput.getD .clamp
    catStatus := checkCatalog p.catalog
    pState := .idle
    pOp := .none
    lineBuf := []
    elapsed := 0
    timeoutT := 0
    tx := tx
    rx := rx
    refused := !admissible p.catalog
    response := if admissible p.catalog then none else some (.refused .badCatalogParameter)
    events := [] }

/-- The machine right after reset: the spec's reset values (R46) under the default parameters. The
catalog FIX is a DESIGN CHOICE (log entry 2), as are the empty streams (log entry 3) and the values of
the model's own two fields (log entry 23). -/
def State.reset : State := State.boot Config.defaultParams [] []

end Sys2Proof.Machine
end

