-- ==== Sys2Proof/Machine/Operands.lean ====
section
/-! DEFINITION. Operand forms: field inputs and their resolution, the field insert and extract, and the
byte form of the register (spec 20_memory R61 to R68, 41_pack_unpack R120 to R129). -/

namespace Sys2Proof.Machine

/-- `input(values, f)`: the input named for `f`, else the value 0 (R37, R121). -/
def inputFor (values : FieldValues) (f : FieldSpec) : FieldIn :=
  (values.lookup f.name).getD (.val 0)

/-- The errors ASSIGN raises (R202, R203). -/
inductive PackError where
  | outOfRange (field : FieldName) (value max : Nat)
  | malformed (field : FieldName)
deriving DecidableEq, Repr

/-- `resolve(f, x, MODE)`: the field's value and whether it was malformed, or an error (R122). -/
def resolve (f : FieldSpec) (x : FieldIn) (mode : Mode) : Except PackError (Nat × Bool) :=
  match x, mode with
  | .val n, .clamp => if n ≤ f.max then .ok (n, false) else .ok (n % 2 ^ f.width, false)
  | .val n, .strict => if n ≤ f.max then .ok (n, false) else .error (.outOfRange f.name n f.max)
  | .malformed, .clamp => .ok (0, true)
  | .malformed, .strict => .error (.malformed f.name)

/-- `REG[p] <- b`, one bit (R124). A position outside 0..127 is no bit of REG and a write there changes
nothing (R7; only a catalog that fails W2 has one, log entry 22). -/
def writeBit (reg : Reg) (p : Int) (b : Bool) : Reg :=
  match p with
  | .ofNat i => if b then reg ||| ((1 : Reg) <<< i) else reg &&& ~~~((1 : Reg) <<< i)
  | .negSucc _ => reg

/-- `REG[p]`, one bit (R129). A position outside 0..127 is no bit of REG and reads 0 (log entry 22). -/
def readBit (reg : Reg) (p : Int) : Bool :=
  match p with
  | .ofNat i => reg.getLsbD i
  | .negSucc _ => false

/-- `REG[off(f) : lo(f)] <- w`: bit `width − 1 − j` of `w` goes to position `off − j` (R65, R124). -/
def insertField (reg : Reg) (f : FieldSpec) (w : Nat) : Reg :=
  (List.range f.width).foldl (fun r (j : Nat) => writeBit r ((f.off : Int) - (j : Int)) (w.testBit (f.width - 1 - j))) reg

/-- `REG[off(f) : lo(f)]`: the sum over `j` of `REG[lo + j] * 2^j` (R129). -/
def extractField (reg : Reg) (f : FieldSpec) : Nat :=
  ((List.range f.width).map fun (j : Nat) => (readBit reg (f.lo + (j : Int))).toNat * 2 ^ j).sum

/-- Byte `i` of the packed form is `REG[127 − 8*i : 120 − 8*i]` (R61, R62). -/
def bytesOfReg (reg : Reg) : ByteString :=
  (List.range Config.nBytes).map fun i => reg.extractLsb' (120 - 8 * i) 8

/-- `B[0] ++ … ++ B[15]` read as one 128-bit number, `B[0]` most significant (R12, R61). -/
def regOfBytes (bytes : ByteString) : Reg :=
  bytes.foldl (fun reg b => (reg <<< 8) ||| b.setWidth 128) 0

/-- ASSIGN's loop over the catalog, in catalog order: the working register and the warnings so far, and
the first error ends it (R123, R126, R209). -/
def assignFields (mode : Mode) (values : FieldValues) :
    List FieldSpec → Reg → List FieldName → Except PackError (Reg × List FieldName)
  | [], reg, warnings => .ok (reg, warnings)
  | f :: fs, reg, warnings =>
    match resolve f (inputFor values f) mode with
    | .error e => .error e
    | .ok (w, warn) =>
      assignFields mode values fs (insertField reg f w) (if warn then warnings ++ [f.name] else warnings)

/-- DECODE's field list, in catalog order (R128). -/
def decodeFields (catalog : List FieldSpec) (reg : Reg) : List (FieldName × Nat) :=
  catalog.map fun f => (f.name, extractField reg f)

end Sys2Proof.Machine
end

