-- ==== Sys2Proof/Machine/Flags.lean ====
section
/-! DEFINITION. The block has no condition codes (spec 10_state R48). This file holds what stands in their
place: the status codes (60_exceptions R201), the predicates read from the state, the classification of
a line (42_protocol R167) and the outcome P_STATE shows (R169). -/

namespace Sys2Proof.Machine

/-- Status 0x00, OK (R201). -/
def statusOk : Byte := 0x00
/-- Status 0x01, OutOfRangeError (R201). -/
def statusOutOfRange : Byte := 0x01
/-- Status 0x02, MalformedInputError (R201). -/
def statusMalformed : Byte := 0x02
/-- Status 0x03, CatalogInvariantViolation (R201). -/
def statusCatalog : Byte := 0x03
/-- Status 0x04, ProtocolError (R201). -/
def statusProtocol : Byte := 0x04
/-- Status 0x05, TimeoutError (R201). -/
def statusTimeout : Byte := 0x05

/-- HALTED: CAT_STATUS is Invalid (R30). -/
def halted (s : State) : Bool := decide (s.catStatus ≠ .valid)

/-- A framer operation is running: P_STATE is Sent or AwaitingResponse (R171). -/
def busy (s : State) : Bool := decide (s.pState = .sent ∨ s.pState = .awaitingResponse)

/-- Ready: the framer may start an operation (R40, 42_protocol's opening). -/
def ready (s : State) : Bool := !busy s

/-- MODE as one bit (R38). -/
def modeBit : Mode → BitVec 1
  | .clamp => 0
  | .strict => 1

/-- The classes of a response line (R167). -/
inductive LineClass where
  | success
  | error
  | nonDecisive
deriving DecidableEq, Repr

/-- The success token of an operation (R41, R167: every operation but TRANSFER takes RESET's). -/
def successToken (op : POp) : ByteString :=
  if op = .transfer then tokTransferComplete else tokResetComplete

/-- `classify(line, op)` (R167). -/
def classify (priority : TokenPriority) (op : POp) (line : ByteString) : LineClass :=
  let hasS := containsToken (successToken op) line
  let hasE := containsToken tokError line
  match priority with
  | .successFirst => if hasS then .success else if hasE then .error else .nonDecisive
  | .errorFirst => if hasE then .error else if hasS then .success else .nonDecisive

/-- The result record of an ended operation (R169). -/
def outcome : PState → Option Result
  | .completedSuccess => some ⟨statusOk, .empty⟩
  | .completedError msg => some ⟨statusProtocol, .message msg⟩
  | .timedOut => some ⟨statusTimeout, .empty⟩
  | .idle => none
  | .sent => none
  | .awaitingResponse => none

/-- The result record of a CHECK verdict (R100, R204). -/
def checkResult : CatStatus → Result
  | .valid => ⟨statusOk, .valid⟩
  | .invalid report => ⟨statusCatalog, .invalid report⟩

/-- The result record of an ASSIGN error (R200 to R203). -/
def errorResult : PackError → Result
  | .outOfRange field value max => ⟨statusOutOfRange, .outOfRange field value max⟩
  | .malformed field => ⟨statusMalformed, .malformedInput field⟩

end Sys2Proof.Machine
end

