-- ==== Sys2Proof/Machine/Ops.lean ====
section
/-! DEFINITION. The named operations over the state: the streams, results and refusals, the framer's
steps, the peer's and the clock's, and the block reset (spec 00_scope R14, 42_protocol R160 to R172,
60_exceptions R200, R208, 70_reset_and_hazards R230). The block takes no exceptions: an error is a
result record (R200), and there is no return from one (R214). -/

namespace Sys2Proof.Machine

/-- The step returns nothing to the host. -/
def quiet (s : State) : State := { s with response := none }

/-- `return r` and `raise E(info)`: the command ends with this result record and writes nothing else
(R14, R200). -/
def reply (r : Result) (s : State) : State := { s with response := some (.result r) }

/-- `refuse R`: sets REFUSED and changes no other state element (R208); the host is told the reason. -/
def refuse (reason : RefuseReason) (s : State) : State :=
  { s with refused := true, response := some (.refused reason) }

/-- `RxClear()` (R14). -/
def rxClear (s : State) : State := { s with rx := [] }

/-- `TxClear()` (R14). -/
def txClear (s : State) : State := { s with tx := [] }

/-- `TxWrite(bs)`: one indivisible append (R14, R67). -/
def txWrite (bytes : ByteString) (s : State) : State := { s with tx := s.tx ++ bytes }

/-- `start(op, frame, t)` (R163). -/
def start (op : POp) (frame : ByteString) (t : Nat) (s : State) : State :=
  let cleared := txClear (rxClear s)
  let prepared := { cleared with lineBuf := [], pOp := op, timeoutT := t }
  quiet { txWrite frame prepared with pState := .sent }

/-- The checks and the start that TRANSFER and RESET share, in the order Halted, Busy (R161, R162, R171,
R210). -/
def beginOperation (op : POp) (frame : ByteString) (t : Nat) (s : State) : State :=
  if halted s then refuse .halted s
  else if busy s then refuse .busy s
  else start op frame t s

/-- The operation ends in `p`; its result goes to the host (R169). -/
def finish (p : PState) (s : State) : State :=
  { s with pState := p, response := (outcome p).map .result }

/-- Enter the wait (R164). -/
def enterWait (s : State) : State :=
  quiet { s with elapsed := 0, pState := .awaitingResponse }

/-- A byte other than LF joins LINEBUF; a full buffer refuses it and leaves it unread in RX (R165, R166,
R172; DEDUCED from R208, log entry 7). -/
def takeByte (b : Byte) (rest : ByteString) (s : State) : State :=
  if s.params.lineBufCap = some s.lineBuf.length then refuse .lineOverflow s
  else quiet { s with rx := rest, lineBuf := s.lineBuf ++ [b] }

/-- The LF that ends a line is popped (R165). -/
def popLf (rest : ByteString) (s : State) : State := { s with rx := rest }

/-- `LINEBUF <- []` (R166). -/
def clearLine (s : State) : State := { s with lineBuf := [] }

/-- The complete line empties LINEBUF, is classified and decides the operation, or not (R160, R166, R167).
Outside the wait no line is read (R170). -/
def lineDone (line : ByteString) (s : State) : State :=
  match s.pState with
  | .awaitingResponse =>
    match classify s.params.tokenPriority s.pOp line with
    | .success => finish .completedSuccess (clearLine s)
    | .error => finish (.completedError line) (clearLine s)
    | .nonDecisive => quiet (clearLine s)
  | _ => quiet s

/-- A tick of the clock (R160, R168, R170). -/
def tick (s : State) : State :=
  match s.pState with
  | .awaitingResponse =>
    if s.timeoutT ≤ s.elapsed + 1 then finish .timedOut { s with elapsed := s.elapsed + 1 }
    else quiet { s with elapsed := s.elapsed + 1 }
  | _ => quiet s

/-- The peer takes up to `n` bytes from the front of TX (R44, R175; log entry 24). -/
def peerTake (n : Nat) (s : State) : State := quiet { s with tx := s.tx.drop n }

/-- The peer takes this frame from the front of TX; nothing happens where TX does not begin with it
(R44, R64, R175; log entry 10). -/
def takeFrame (frame : ByteString) (s : State) : State :=
  if frame.isPrefixOf s.tx then quiet { s with tx := s.tx.drop frame.length } else quiet s

/-- The peer appends bytes to RX (R44, R175). -/
def peerSend (bytes : ByteString) (s : State) : State := quiet { s with rx := s.rx ++ bytes }

/-- `RESET_BLOCK()` (R230): TX, RX, the parameters, REFUSED and the schedule stay. A catalog parameter
that fails W5 to W7 is refused (R34, R208; log entries 13, 14). -/
def resetBlock (s : State) : State :=
  if admissible s.params.catalog then
    quiet { s with
      mode := s.params.modeInput.getD .clamp
      pState := .idle
      pOp := .none
      lineBuf := []
      elapsed := 0
      timeoutT := 0
      catStatus := checkCatalog s.params.catalog }
  else refuse .badCatalogParameter s

end Sys2Proof.Machine
end

