-- ==== Sys2Proof/WellFormed.lean ====
section
/-! DEFINITION. Which instructions are well formed: operand lengths and distinct names (spec 30_encoding
R84 to R87), reserved opcodes (R83), lines that hold their token and no LF (R92, R93). -/

namespace Sys2Proof

open Machine

/-- The names of an ASSIGN operand. -/
abbrev FieldValues.names (values : FieldValues) : List FieldName := values.map Prod.fst

/-- An operand of exactly 16 bytes (R85, R86, R88). -/
abbrev sixteenBytes (data : ByteString) : Bool := decide (data.length = Config.nBytes)

/-- A line holds no LF (R92). -/
abbrev noLf (line : ByteString) : Bool := decide (lf ∉ line)

/-- Well-formedness of an instruction. A line that holds several tokens belongs to the first of the
rows TRANSFER_COMPLETE, RESET_COMPLETE, ERROR whose token it holds (log entry 11). -/
def Instr.wf : Instr → Bool
  | .check => true
  | .assign values => decide values.names.Nodup
  | .decode data => sixteenBytes data
  | .transfer data _ => sixteenBytes data
  | .reset _ => true
  | .illegal op => decide (op.toNat = 0 ∨ 6 ≤ op.toNat)
  | .frameData data => sixteenBytes data
  | .frameReset => true
  | .tokenTransferComplete line => containsToken tokTransferComplete line && noLf line
  | .tokenResetComplete line =>
    containsToken tokResetComplete line && !containsToken tokTransferComplete line && noLf line
  | .tokenError line =>
    containsToken tokError line && !containsToken tokTransferComplete line &&
      !containsToken tokResetComplete line && noLf line

end Sys2Proof
end

