-- ==== Sys2Proof/Machine/Packer.lean ====
section
/-! DEFINITION. The packer's commands CHECK, ASSIGN and DECODE (spec 40_catalog, 41_pack_unpack), and the
reserved host opcodes (30_encoding R83). Each is one atomic step that writes no state (R47, R69). -/

namespace Sys2Proof.Machine

open Host (Outcome)

/-- CHECK, accepted in every state (R100). -/
def execCheck (s : State) : Outcome State Fault Refusal :=
  .next (reply (checkResult (checkCatalog s.params.catalog)) s)

/-- ASSIGN: Halted, then DuplicateKey, then the fields in catalog order over an all-zero register (R123,
R125, R210). -/
def execAssign (values : FieldValues) (s : State) : Outcome State Fault Refusal :=
  .next <|
    if halted s then refuse .halted s
    else if values.names.Nodup then
      match assignFields s.mode values s.params.catalog 0 [] with
      | .ok (reg, warnings) => reply ⟨statusOk, .packed (bytesOfReg reg) warnings⟩ s
      | .error e => reply (errorResult e) s
    else refuse .duplicateKey s

/-- DECODE (R128). Data of another length does not pass the interface (R85; log entry 15). -/
def execDecode (data : ByteString) (s : State) : Outcome State Fault Refusal :=
  .next <|
    if !sixteenBytes data then refuse .badOperandLength s
    else if halted s then refuse .halted s
    else reply ⟨statusOk, .fields (decodeFields s.params.catalog (regOfBytes data))⟩ s

/-- A reserved host opcode selects no command and is refused IllegalCommand (R83). So it is on a halted
block too, where R204 says Halted of every command and R210 orders neither: DESIGN CHOICE, log entry 27. -/
def execIllegal (_op : Byte) (s : State) : Outcome State Fault Refusal :=
  .next (refuse .illegalCommand s)

end Sys2Proof.Machine
end

