-- ==== Sys2Proof/Machine/Framer.lean ====
section
/-! DEFINITION. The framer's commands TRANSFER and RESET (spec 42_protocol R161, R162), the frames on the
wire (30_encoding R88, R89) and the response lines that hold a token (42_protocol R166, R167). -/

namespace Sys2Proof.Machine

open Host (Outcome)

/-- TRANSFER writes the DATA frame and starts the operation (R161). Data of another length does not pass
the interface (R86; log entry 15). -/
def execTransfer (data : ByteString) (timeout : Nat) (s : State) : Outcome State Fault Refusal :=
  .next <|
    if !sixteenBytes data then refuse .badOperandLength s
    else beginOperation .transfer (dataFrame data) timeout s

/-- RESET writes the RESET frame and starts the operation (R162). It resets nothing in the block (R231). -/
def execReset (timeout : Nat) (s : State) : Outcome State Fault Refusal :=
  .next (beginOperation .reset resetFrame timeout s)

/-- A DATA frame at the front of TX is taken by the peer it is for (R64, R88, R175; DEDUCED, log entry
10). It is written by TRANSFER. -/
def execFrameData (data : ByteString) (s : State) : Outcome State Fault Refusal :=
  .next (takeFrame (dataFrame data) s)

/-- A RESET frame at the front of TX is taken by the peer it is for (R64, R89, R175; DEDUCED, log entry
10). It is written by RESET. -/
def execFrameReset (s : State) : Outcome State Fault Refusal :=
  .next (takeFrame resetFrame s)

/-- A complete line that holds "TRANSFER_COMPLETE" (R93, R166, R167). -/
def execTokenTransferComplete (line : ByteString) (s : State) : Outcome State Fault Refusal :=
  .next (lineDone line s)

/-- A complete line that holds "RESET_COMPLETE" (R93, R166, R167). -/
def execTokenResetComplete (line : ByteString) (s : State) : Outcome State Fault Refusal :=
  .next (lineDone line s)

/-- A complete line that holds "ERROR" (R93, R166, R167). -/
def execTokenError (line : ByteString) (s : State) : Outcome State Fault Refusal :=
  .next (lineDone line s)

end Sys2Proof.Machine
end

