-- ==== Sys2Proof/Machine/Dispatch.lean ====
section
/-! DEFINITION. The meaning of every instruction, one arm per constructor (spec/opcode_table.json). -/

namespace Sys2Proof.Machine

def exec (i : Instr) (s : State) : Host.Outcome State Fault Refusal :=
  match i with
  | .check => Sys2Proof.Machine.execCheck s
  | .assign values => Sys2Proof.Machine.execAssign values s
  | .decode data => Sys2Proof.Machine.execDecode data s
  | .transfer data timeout => Sys2Proof.Machine.execTransfer data timeout s
  | .reset timeout => Sys2Proof.Machine.execReset timeout s
  | .illegal op => Sys2Proof.Machine.execIllegal op s
  | .frameData data => Sys2Proof.Machine.execFrameData data s
  | .frameReset => Sys2Proof.Machine.execFrameReset s
  | .tokenTransferComplete line => Sys2Proof.Machine.execTokenTransferComplete line s
  | .tokenResetComplete line => Sys2Proof.Machine.execTokenResetComplete line s
  | .tokenError line => Sys2Proof.Machine.execTokenError line s

end Sys2Proof.Machine
end

