-- ==== Sys2Proof/Decode.lean ====
section
/-! DEFINITION. The decoder of the three encoding spaces, total and rejecting by name, the encoder, and
the reading of a row of spec/opcode_table.json (spec 30_encoding R80 to R94). -/

namespace Sys2Proof

open Machine

/-- Why the decoder rejects. -/
inductive DecodeError where
  /-- DECODE or TRANSFER data that is not 16 bytes: refused at the interface (R85, R86). -/
  | badOperandLength
  /-- no byte stands in the TX stream -/
  | emptyStream
  /-- the first byte starts no frame (R91) -/
  | notAFrame
  /-- fewer than 18 bytes of a DATA frame stand in the stream (R88) -/
  | incompleteFrame
  /-- byte 17 of a DATA frame is not 0x3E (R88) -/
  | badEndDelimiter
  /-- the line holds none of the three tokens and is ignored (R94) -/
  | nonDecisiveLine
deriving DecidableEq, Repr

/-- A host command is decoded from its op byte, matched exactly (R82, R83); data of another length than
16 bytes is rejected at the interface (R85, R86). -/
def decodeHost (c : Command) : Except DecodeError Instr :=
  match c.op.toNat with
  | 1 => .ok .check
  | 2 => .ok (.assign c.values)
  | 3 => if sixteenBytes c.data then .ok (.decode c.data) else .error .badOperandLength
  | 4 => if sixteenBytes c.data then .ok (.transfer c.data c.timeout) else .error .badOperandLength
  | 5 => .ok (.reset c.timeout)
  | _ => .ok (.illegal c.op)

/-- A wire frame is recognised from its first byte and has that frame's length; the bytes after it are
not looked at (R80, R88, R89, R91). -/
def decodeFrame : ByteString → Except DecodeError Instr
  | [] => .error .emptyStream
  | b :: bs =>
    if b = resetByte then .ok .frameReset
    else if b = startDelimiter then
      match bs.drop 16 with
      | [] => .error .incompleteFrame
      | e :: _ => if e = endDelimiter then .ok (.frameData (bs.take 16)) else .error .badEndDelimiter
    else .error .notAFrame

/-- A response line is read by token search (R80, R93, R94). Which row a line with several tokens is
read as has no effect on what it does (log entry 11). -/
def decodeLine (line : ByteString) : Except DecodeError Instr :=
  if containsToken tokTransferComplete line then .ok (.tokenTransferComplete line)
  else if containsToken tokResetComplete line then .ok (.tokenResetComplete line)
  else if containsToken tokError line then .ok (.tokenError line)
  else .error .nonDecisiveLine

/-- The decoder: each space by its own rule (R80). -/
def decode : Encoded → Except DecodeError Instr
  | .host c => decodeHost c
  | .wire bytes => decodeFrame bytes
  | .line bytes => decodeLine bytes

/-- The encoder (R82, R88, R89, R92). -/
def encode : Instr → Encoded
  | .check => .host { op := 0x01 }
  | .assign values => .host { op := 0x02, values := values }
  | .decode data => .host { op := 0x03, data := data }
  | .transfer data timeout => .host { op := 0x04, data := data, timeout := timeout }
  | .reset timeout => .host { op := 0x05, timeout := timeout }
  | .illegal op => .host { op := op }
  | .frameData data => .wire (dataFrame data)
  | .frameReset => .wire resetFrame
  | .tokenTransferComplete line => .line line
  | .tokenResetComplete line => .line line
  | .tokenError line => .line line

/-- The bytes of a table word: byte `i` is bits `8*i+7 .. 8*i` of `w`. -/
def tableBytes (nbits w : Nat) : ByteString :=
  (List.range (nbits / 8)).map fun i => BitVec.ofNat 8 (w >>> (8 * i))

/-- The host command record with this op byte and operands of zeros: no pairs, 16 zero bytes, timeout 0. -/
def zeroOperands (op : Byte) : Command :=
  { op := op, data := List.replicate Config.nBytes 0 }

/-- The encoding space a table word stands in. Its bytes are a DATA frame if they read as one, else a
response line if they hold a token, else the RESET frame if they are the one byte 0x52, else (one byte)
the op byte of a host command whose operands are zeros. DESIGN CHOICE, log entry 12: the table's rows
stand in three spaces and 0x52 alone is both the RESET frame and a reserved host opcode. -/
def tableEncoded (nbits w : Nat) : Option Encoded :=
  let bytes := tableBytes nbits w
  match decodeFrame bytes, decodeLine bytes, bytes with
  | .ok (.frameData _), _, _ => some (.wire bytes)
  | _, .ok _, _ => some (.line bytes)
  | .ok .frameReset, _, [_] => some (.wire bytes)
  | _, _, [op] => some (.host (zeroOperands op))
  | _, _, _ => none

/-- What the decoder reads from a word of spec/opcode_table.json, bit 0 the least significant bit of the
first byte. -/
def decodeTableWord (nbits w : Nat) : Option Instr :=
  match tableEncoded nbits w with
  | none => none
  | some e => (decode e).toOption

end Sys2Proof
end

