-- ==== Sys2Proof/Machine/Fetch.lean ====
section
/-! DEFINITION. What the next step runs: the next event of the schedule, and the instruction it brings in
one of the three encoding spaces, if it brings one (spec 00_scope R6, 30_encoding R80, 42_protocol R160).
The block has no program counter and no instruction memory (10_state R32, 20_memory R75). -/

namespace Sys2Proof.Machine

/-- What the next event comes to. -/
inductive Fetched where
  /-- this instruction is to be run in this state -/
  | run (i : Instr) (s : State)
  /-- the step brings no instruction; this is its next state -/
  | done (s : State)
deriving DecidableEq, Repr

/-- A command record at the host port (R81, R82). The decoder rejects a record for the length of its data
alone, and the interface refuses it (R85, R86, R208). -/
def fetchCommand (c : Command) (s : State) : Fetched :=
  match decode (.host c) with
  | .ok i => .run i s
  | .error _ => .done (refuse .badOperandLength s)

/-- The frame at the front of TX, for the peer (R91, R175). Where no whole frame stands there the peer
takes none. -/
def fetchFrame (s : State) : Fetched :=
  match decode (.wire s.tx) with
  | .ok i => .run i s
  | .error _ => .done (quiet s)

/-- A complete line: its LF is popped and the line, which stands in LINEBUF, is read by token search
(R166). A line with no token is ignored (R94). -/
def fetchLine (rest : ByteString) (s : State) : Fetched :=
  match decode (.line s.lineBuf) with
  | .ok i => .run i (popLf rest s)
  | .error _ => .done (quiet (clearLine (popLf rest s)))

/-- The framer's next step (R160, R164 to R166). Where none is enabled nothing happens (R160's last
sentence, R170). -/
def fetchFramer (s : State) : Fetched :=
  match s.pState, s.rx with
  | .sent, _ => .done (enterWait s)
  | .awaitingResponse, b :: rest => if b = lf then fetchLine rest s else .done (takeByte b rest s)
  | _, _ => .done (quiet s)

/-- One event of the schedule, in the state that has it removed. -/
def fetchEvent (e : Event) (s : State) : Fetched :=
  match e with
  | .command c => fetchCommand c s
  | .framer => fetchFramer s
  | .peerTake n => .done (peerTake n s)
  | .peerFrame => fetchFrame s
  | .peerSend bytes => .done (peerSend bytes s)
  | .tick => .done (tick s)
  | .blockReset => .done (resetBlock s)

/-- The next event; with an empty schedule the framer goes on by itself where it can, and otherwise the
block waits (log entry 4). -/
def fetch (s : State) : Fetched :=
  match s.events with
  | [] => fetchFramer s
  | e :: es => fetchEvent e { s with events := es }

/-- The agent that takes the next step (R6): the packer its own commands, the framer the start of an
operation and its later steps, the host a record that starts neither. The spec gives the block reset to
none of the five agents (R230, R232): giving it to the host, which boots the block, is a DESIGN CHOICE that
no step depends on, log entry 25. -/
def actingAgent (s : State) : Agent :=
  match s.events with
  | [] => .framer
  | .command c :: _ =>
    match decode (.host c) with
    | .ok .check => .packer
    | .ok (.assign _) => .packer
    | .ok (.decode _) => .packer
    | .ok (.transfer _ _) => .framer
    | .ok (.reset _) => .framer
    | _ => .host
  | .framer :: _ => .framer
  | .peerTake _ :: _ => .peer
  | .peerFrame :: _ => .peer
  | .peerSend _ :: _ => .peer
  | .tick :: _ => .clock
  | .blockReset :: _ => .host

/-- The event that brings what stands at this place of the encoding spaces to the next step, put first in
the schedule, with the stream or the line it is read from. -/
def placeEncoded (e : Encoded) (s : State) : State :=
  match e with
  | .host c => { s with events := .command c :: s.events }
  | .wire bytes => { s with tx := bytes ++ s.tx, events := .peerFrame :: s.events }
  | .line bytes =>
    { s with pState := .awaitingResponse, lineBuf := bytes, rx := lf :: s.rx,
             events := .framer :: s.events }

end Sys2Proof.Machine
end

