-- ==== Sys2Proof/Machine/Step.lean ====
section
/-! DEFINITION. One step: the next event, and the meaning of the instruction it brings (spec 00_scope
R6). -/

namespace Sys2Proof.Machine

/-- One step of the block and its environment. -/
def step (s : State) : Host.Outcome State Fault Refusal :=
  match fetch s with
  | .run i s' => exec i s'
  | .done s' => .next s'

/-- `s` with the instruction of a table word placed where the next step reads it: a host command at the
command port, a frame at the front of TX, a line with its LF in the framer's wait (log entry 12). A word
no row of the table matches places nothing. -/
def State.withFetchWord (s : State) (nbits w : Nat) : State :=
  match tableEncoded nbits w with
  | none => s
  | some e => placeEncoded e s

end Sys2Proof.Machine
end

