-- ==== Sys2Proof/Machine/HostPort.lean ====
section
/-! DEFINITION. The host's own duties, done before or between commands and no steps of the block: the
normalisation of raw values (spec 41_pack_unpack R120), the conversion of a duration to ticks
(30_encoding R86), the expansion of CONFIGURE (R97), and the textual syntax of the commands (R96). -/

namespace Sys2Proof.Machine

/-- A raw user-interface value (R120). -/
inductive RawValue where
  | boolean (b : Bool)
  | integer (z : Int)
  | text (t : ByteString)
  | other
deriving DecidableEq, Repr

/-- An ASCII decimal digit (R120). -/
def isDigit (b : Byte) : Bool := decide (0x30 ≤ b.toNat) && decide (b.toNat ≤ 0x39)

/-- The decimal value of a digit text, leading zeros allowed (R120). -/
def decimalValue (t : ByteString) : Nat :=
  t.foldl (fun n b => 10 * n + (b.toNat - 0x30)) 0

/-- The host's normalisation (R120): a negative integer is malformed (conflict C4). -/
def normalise : RawValue → FieldIn
  | .boolean b => .val b.toNat
  | .integer z => if 0 ≤ z then .val z.toNat else .malformed
  | .text t => if !t.isEmpty && t.all isDigit then .val (decimalValue t) else .malformed
  | .other => .malformed

/-- `ceil(duration / POLL_INTERVAL)` ticks (R86, R243), for a positive poll interval. -/
def ticksOf (pollInterval duration : Nat) : Nat :=
  (duration + (pollInterval - 1)) / pollInterval

/-- The first command of CONFIGURE (R97). -/
def configureFirst (values : FieldValues) : Command := { op := 0x02, values := values }

/-- What CONFIGURE goes on with after ASSIGN's answer: TRANSFER of its bytes on status 0x00, else nothing
(R97). -/
def configureNext (answer : Response) (timeout : Nat) : Option Command :=
  match answer with
  | .result ⟨status, .packed bytes _⟩ =>
    if status = statusOk then some { op := 0x04, data := bytes, timeout := timeout } else none
  | _ => none

/-- A natural number in decimal digits. -/
def decimalText (n : Nat) : ByteString :=
  (Nat.toDigits 10 n).map fun c => BitVec.ofNat 8 c.toNat

/-- One hexadecimal digit, capitals. -/
def hexDigit (n : Nat) : Byte :=
  if n < 10 then BitVec.ofNat 8 (0x30 + n) else BitVec.ofNat 8 (0x37 + n)

/-- Two hexadecimal digits a byte, one blank between bytes (R96). -/
def hexText (bytes : ByteString) : ByteString :=
  (bytes.map fun b => [hexDigit (b.toNat / 16), hexDigit (b.toNat % 16)]).intersperse (ascii " ") |>.flatten

/-- One pair of an ASSIGN mapping (R96). -/
def pairText (pair : FieldName × FieldIn) : ByteString :=
  pair.1 ++ ascii " = " ++
    match pair.2 with
    | .val n => decimalText n
    | .malformed => ascii "MALFORMED"

/-- An ASSIGN mapping between braces, 0x7B and 0x7D (R96). -/
def mappingText (values : FieldValues) : ByteString :=
  if values.isEmpty then [0x7B, 0x20, 0x7D]
  else [0x7B, 0x20] ++ ((values.map pairText).intersperse (ascii " , ")).flatten ++ [0x20, 0x7D]

/-- The spec's mnemonic form of the five commands (R96); the other rows of the table have none. Capitals
and blanks where the rule leaves them open: log entry 21. -/
def commandText : Instr → Option ByteString
  | .check => some (ascii "CHECK")
  | .assign values => some (ascii "ASSIGN " ++ mappingText values)
  | .decode data => some (ascii "DECODE " ++ hexText data)
  | .transfer data timeout =>
    some (ascii "TRANSFER " ++ hexText data ++ ascii " , timeout=" ++ decimalText timeout)
  | .reset timeout => some (ascii "RESET timeout=" ++ decimalText timeout)
  | .illegal _ => none
  | .frameData _ => none
  | .frameReset => none
  | .tokenTransferComplete _ => none
  | .tokenResetComplete _ => none
  | .tokenError _ => none

/-- The mnemonic form of CONFIGURE (R96, R97). -/
def configureText (values : FieldValues) (timeout : Nat) : ByteString :=
  ascii "CONFIGURE " ++ mappingText values ++ ascii " , timeout=" ++ decimalText timeout

end Sys2Proof.Machine
end

