-- ==== Sys2Proof/Safety.lean ====
section
/-! DEFINITION. What counts as a good run, and the terms the statements use: the invariant of the state,
one step as a relation, the end of a run (spec 70_reset_and_hazards R233), and readings of operands and
packed bytes that do not go through the model's own operations. -/

namespace Sys2Proof.Machine

/-- One step as a relation. -/
def Steps (s t : State) : Prop := step s = .next t

/-- `t` is reached from `s` in any number of steps. -/
def Reaches (s t : State) : Prop := Relation.ReflTransGen Steps s t

/-- No command and no configuration of the run so far was refused (R45). -/
def unrefused (s : State) : Bool := !s.refused

/-- The next step is a framer step: it is scheduled, or the schedule is empty (R6; log entry 4). -/
def FramerActs (s : State) : Prop := s.events = [] ∨ s.events.head? = some .framer

/-- The event is a host command. -/
def Event.isCommand : Event → Bool
  | .command _ => true
  | .framer => false
  | .peerTake _ => false
  | .peerFrame => false
  | .peerSend _ => false
  | .tick => false
  | .blockReset => false

/-- The run is over: the host has issued its last command and every framer command has returned (R233). -/
def runOver (s : State) : Bool := ready s && !s.events.any Event.isCommand

/-- Bit `p` of the register, read from its packed bytes: REG[127 − 8*i − j] is bit 7 − j of byte `i`
(R61). -/
def regBit (bytes : ByteString) (p : Nat) : Bool :=
  ((bytes[15 - p / 8]?).getD 0).getLsbD (p % 8)

/-- `x` is the input of field `f` in `values`: the pair stands there, or the name does not and `x` is the
value 0 (R37, R121). -/
def InputIs (values : FieldValues) (f : FieldSpec) (x : FieldIn) : Prop :=
  (f.name, x) ∈ values ∨ (f.name ∉ values.map Prod.fst ∧ x = .val 0)

/-- The catalog conditions W1 to W4 (R34), in the spec's own words. -/
structure ExactCover (catalog : List FieldSpec) : Prop where
  /-- W1 -/
  width : ∀ f ∈ catalog, 1 ≤ f.width
  /-- W2 -/
  bounds : ∀ f ∈ catalog, f.off ≤ 127 ∧ f.width ≤ f.off + 1
  /-- W3 -/
  once : ∀ i < 128, (catalog.filter fun f => f.off + 1 ≤ i + f.width ∧ i ≤ f.off).length = 1
  /-- W4 -/
  names : (catalog.map FieldSpec.name).Nodup

/-- The conditions W5 to W7 on the catalog parameter (R34, R36), in the spec's own words. -/
structure KnownCatalog (catalog : List FieldSpec) : Prop where
  /-- W5 -/
  width : ∀ f ∈ catalog, f.width ≤ 7
  /-- W6: the three required entries of R36 -/
  required : (⟨ascii "_CSH_EN_8_", 127, 1⟩ : FieldSpec) ∈ catalog ∧
    (⟨ascii "_TEST_ADD_", 11, 4⟩ : FieldSpec) ∈ catalog ∧
    (⟨ascii "_TMUX_SEL_", 7, 4⟩ : FieldSpec) ∈ catalog
  /-- W7 -/
  named : (∃ f ∈ catalog, f.name = ascii "_CSH_EN_1_") ∧
    (∃ f ∈ catalog, f.name = ascii "_PI_DELAY_CTRL3_")

/-- The catalog of this state passes CHECK and reset found it so. -/
def CatalogGood (s : State) : Prop := s.catStatus = .valid ∧ ExactCover s.params.catalog

/-- The invariant of the block's state: what every step keeps and a block reset establishes. -/
structure StateInv (s : State) : Prop where
  /-- CAT_STATUS is CHECK's verdict on the immutable catalog (R39, R103) -/
  catalog : s.catStatus = checkCatalog s.params.catalog
  /-- MODE holds the configuration input for the whole run (R38) -/
  mode : s.mode = s.params.modeInput.getD .clamp
  /-- a halted block never starts an operation (R204) -/
  halted : s.catStatus ≠ .valid → s.pState = .idle
  /-- P_OP is None exactly before the first operation (R40, R41) -/
  operation : s.pState = .idle ↔ s.pOp = .none
  /-- LINEBUF holds no LF (R42) -/
  line : lf ∉ s.lineBuf
  /-- LINEBUF stays within its capacity (R42, R172) -/
  capacity : ∀ cap, s.params.lineBufCap = some cap → s.lineBuf.length ≤ cap
  /-- only a wait, or a wait that timed out, leaves an unfinished line (R163, R166) -/
  unfinished : s.pState ≠ .awaitingResponse → s.pState ≠ .timedOut → s.lineBuf = []
  /-- a wait goes on only before its deadline (R168) -/
  waiting : s.pState = .awaitingResponse → s.elapsed = 0 ∨ s.elapsed < s.timeoutT
  /-- an operation times out at exactly its `max(t, 1)`-th tick (R168) -/
  deadline : s.pState = .timedOut → s.elapsed = max s.timeoutT 1
  /-- an error line holds the error token (R167, R205) -/
  message : ∀ msg, s.pState = .completedError msg → containsToken tokError msg = true

end Sys2Proof.Machine
end

