-- ==== Sys2Proof/Certificates/Slice0/Obligations.lean ====
section
/-! DEFINITION. The statements for the provers. Each docstring names the rule of spec/ it comes from. -/

open Sys2Proof Sys2Proof.Machine

/-! ### Encodings -/

/-- Decode and encode agree for every well-formed instruction of the table, with every operand (R80 to
R94). -/
def Obligations.DecodeOfEncodeIsTheInstruction : Prop :=
  ∀ i : Instr, i.wf = true → decode (encode i) = .ok i

/-- The frame at the front of the TX stream is told from its first byte, whatever follows it, and nothing
else is read as a frame (R88, R89, R91). -/
def Obligations.FramesAreToldFromTheirFirstByte : Prop :=
  (∀ data rest : ByteString, data.length = 16 →
    decode (.wire ([0x3C] ++ data ++ [0x3E] ++ rest)) = .ok (.frameData data)) ∧
  (∀ rest : ByteString, decode (.wire ([0x52] ++ rest)) = .ok .frameReset) ∧
  (∀ (bytes : ByteString) (i : Instr), decode (.wire bytes) = .ok i →
    (∃ data rest, data.length = 16 ∧ i = .frameData data ∧ bytes = [0x3C] ++ data ++ [0x3E] ++ rest) ∨
    (∃ rest, i = .frameReset ∧ bytes = [0x52] ++ rest))

/-- The opcode map: each op byte selects its command, data of another length than 16 bytes is rejected at
the interface, and every other op byte is reserved (R82, R83, R85, R86). That a record is one op byte and
three operands of which a command reads its own is the model's choice (log entry 9). -/
def Obligations.OpBytesSelectTheirCommands : Prop :=
  ∀ c : Command,
    (c.op = 0x01 → decode (.host c) = .ok .check) ∧
    (c.op = 0x02 → decode (.host c) = .ok (.assign c.values)) ∧
    (c.op = 0x03 → decode (.host c) =
      if c.data.length = 16 then .ok (.decode c.data) else .error .badOperandLength) ∧
    (c.op = 0x04 → decode (.host c) =
      if c.data.length = 16 then .ok (.transfer c.data c.timeout) else .error .badOperandLength) ∧
    (c.op = 0x05 → decode (.host c) = .ok (.reset c.timeout)) ∧
    (c.op = 0x00 ∨ 0x06 ≤ c.op.toNat → decode (.host c) = .ok (.illegal c.op))

/-- A few table words decode to the rows they were written out from (R82, R83, R88, R89, R93). The operands
of zeros and the space the byte 0x52 is read in are the model's choices (log entries 9 and 12). -/
def Obligations.WrittenOutWordsDecode : Prop :=
  decodeTableWord 8 0x01 = some .check ∧
  decodeTableWord 8 0x02 = some (.assign []) ∧
  decodeTableWord 8 0x03 = some (.decode (List.replicate 16 0)) ∧
  decodeTableWord 8 0x04 = some (.transfer (List.replicate 16 0) 0) ∧
  decodeTableWord 8 0x05 = some (.reset 0) ∧
  decodeTableWord 8 0x00 = some (.illegal 0x00) ∧
  decodeTableWord 8 0x06 = some (.illegal 0x06) ∧
  decodeTableWord 8 0xFF = some (.illegal 0xFF) ∧
  decodeTableWord 8 0x52 = some .frameReset ∧
  decodeTableWord 144 0x3E100F0E0D0C0B0A0908070605040302013C =
    some (.frameData [0x01, 0x02, 0x03, 0x04, 0x05, 0x06, 0x07, 0x08,
                      0x09, 0x0A, 0x0B, 0x0C, 0x0D, 0x0E, 0x0F, 0x10]) ∧
  decodeTableWord 40 0x524F525245 = some (.tokenError [0x45, 0x52, 0x52, 0x4F, 0x52])

/-- A reserved host opcode is refused IllegalCommand and changes no state element but REFUSED: the step
that takes the record, and the meaning of the row (R83). That a halted block answers IllegalCommand too, and
not Halted (R204, R208), is the model's choice (log entry 27). The response is the model's own field. -/
def Obligations.ReservedOpcodeIsRefused : Prop :=
  (∀ (s : State) (c : Command) (es : List Event), s.events = .command c :: es →
    c.op = 0x00 ∨ 0x06 ≤ c.op.toNat →
      step s = .next { s with events := es, refused := true,
                              response := some (.refused .illegalCommand) }) ∧
  (∀ (s : State) (op : Byte),
    exec (.illegal op) s = .next { s with refused := true,
                                          response := some (.refused .illegalCommand) })

/-- DECODE or TRANSFER data of another length than 16 bytes is refused at the interface with
BadOperandLength and changes no state element but REFUSED (R85, R86, R208). That a halted or busy block
answers BadOperandLength, not Halted or Busy, is read from the words "at the interface" (log entry 15). -/
def Obligations.OtherLengthIsRefusedAtTheInterface : Prop :=
  ∀ (s : State) (c : Command) (es : List Event), s.events = .command c :: es →
    c.op = 0x03 ∨ c.op = 0x04 → c.data.length ≠ 16 →
      step s = .next { s with events := es, refused := true,
                              response := some (.refused .badOperandLength) }

/-- The tokens are the bytes of R93, and no token contains another (R94). -/
def Obligations.NoTokenContainsAnother : Prop :=
  tokTransferComplete = [0x54, 0x52, 0x41, 0x4E, 0x53, 0x46, 0x45, 0x52, 0x5F,
                         0x43, 0x4F, 0x4D, 0x50, 0x4C, 0x45, 0x54, 0x45] ∧
  tokResetComplete = [0x52, 0x45, 0x53, 0x45, 0x54, 0x5F,
                      0x43, 0x4F, 0x4D, 0x50, 0x4C, 0x45, 0x54, 0x45] ∧
  tokError = [0x45, 0x52, 0x52, 0x4F, 0x52] ∧
  ¬ tokError <:+: tokTransferComplete ∧ ¬ tokError <:+: tokResetComplete ∧
  ¬ tokTransferComplete <:+: tokResetComplete ∧ ¬ tokResetComplete <:+: tokTransferComplete ∧
  ¬ tokTransferComplete <:+: tokError ∧ ¬ tokResetComplete <:+: tokError

/-! ### The step -/

/-- A step runs the decoded instruction: the command at the host port, the frame at the front of TX, the
line an LF ends (R80, R81, R91, R166), with the event taken off the schedule and, for a line, its LF
popped off RX. The schedule is the model's own field (log entry 4). -/
def Obligations.StepRunsTheDecodedInstruction : Prop :=
  (∀ (s : State) (c : Command) (es : List Event) (i : Instr), s.events = .command c :: es →
    decode (.host c) = .ok i → step s = exec i { s with events := es }) ∧
  (∀ (s : State) (es : List Event) (i : Instr), s.events = .peerFrame :: es →
    decode (.wire s.tx) = .ok i → step s = exec i { s with events := es }) ∧
  (∀ (s : State) (es : List Event) (rest : ByteString) (i : Instr), s.events = .framer :: es →
    s.pState = .awaitingResponse → s.rx = 0x0A :: rest → decode (.line s.lineBuf) = .ok i →
      step s = exec i { s with events := es, rx := rest })

/-- With an empty schedule the framer takes the step it has, as if it were scheduled (R160, R164; the
model's choice, log entry 4). -/
def Obligations.EmptyScheduleLetsTheFramerGoOn : Prop :=
  ∀ s t : State, s.events = [] →
    (step s = .next t ↔ step { s with events := [.framer] } = .next t)

/-- No state and no schedule stops the block: every step has a next state. An error is no trap (R200); that
a refusal is a next state (R208) is log entry 6, and that an event which is not enabled (R160) steps with no
change is log entry 4. -/
def Obligations.EveryStepHasANextState : Prop :=
  ∀ s : State, ∃ t, step s = .next t

/-! ### CHECK and the catalog -/

/-- CHECK, in every state: status 0x00 exactly on a catalog that meets W1 to W4, else status 0x03 with the
five lists, and no state element changes (R34, R100, R101, R102). That an out-of-range field's positions
are not counted is read from R100's corner cases (log entry 8), and that two identical entries count as two
in `overlaps` is the model's choice (log entry 26). -/
def Obligations.CheckAnswersTheViolationReport : Prop :=
  ∀ s : State,
    (ExactCover s.params.catalog →
      exec .check s = .next { s with response := some (.result ⟨0x00, .valid⟩) }) ∧
    (¬ ExactCover s.params.catalog → ∃ r : Report,
      exec .check s = .next { s with response := some (.result ⟨0x03, .invalid r⟩) } ∧
      r.badWidth = (s.params.catalog.filter fun f => f.width < 1).map FieldSpec.name ∧
      r.outOfRange = (s.params.catalog.filter fun f =>
        1 ≤ f.width ∧ (127 < f.off ∨ f.off + 1 < f.width)).map FieldSpec.name ∧
      r.gaps = ((List.range 128).filter fun i => (s.params.catalog.filter fun f =>
        1 ≤ f.width ∧ f.off ≤ 127 ∧ f.width ≤ f.off + 1 ∧ f.off + 1 ≤ i + f.width ∧ i ≤ f.off).length = 0) ∧
      r.overlaps = ((List.range 128).filter fun i => 2 ≤ (s.params.catalog.filter fun f =>
        1 ≤ f.width ∧ f.off ≤ 127 ∧ f.width ≤ f.off + 1 ∧ f.off + 1 ≤ i + f.width ∧ i ≤ f.off).length) ∧
      (∀ n, n ∈ r.dupNames ↔ 2 ≤ (s.params.catalog.map FieldSpec.name).count n) ∧
      r.dupNames.Pairwise fun a b =>
        (s.params.catalog.map FieldSpec.name).idxOf a < (s.params.catalog.map FieldSpec.name).idxOf b)

/-- What makes a catalog well-formed: CHECK passes and the model accepts the parameter exactly where W1 to
W7 hold, each written out, with the three required entries of R36 in W6 and the two names of W7 (R34,
R36). -/
def Obligations.WellFormedCatalogIsW1ToW7 : Prop :=
  ∀ catalog : List FieldSpec,
    (checkCatalog catalog = .valid ↔
      (∀ f ∈ catalog, 1 ≤ f.width) ∧
      (∀ f ∈ catalog, f.off ≤ 127 ∧ 0 ≤ f.lo) ∧
      (∀ i : Nat, i < 128 → ∃ f, (catalog.filter fun g => g.lo ≤ (i : Int) ∧ i ≤ g.off) = [f]) ∧
      (catalog.map FieldSpec.name).Nodup) ∧
    (admissible catalog = true ↔
      (∀ f ∈ catalog, f.width ≤ 7) ∧
      (⟨ascii "_CSH_EN_8_", 127, 1⟩ : FieldSpec) ∈ catalog ∧
      (⟨ascii "_TEST_ADD_", 11, 4⟩ : FieldSpec) ∈ catalog ∧
      (⟨ascii "_TMUX_SEL_", 7, 4⟩ : FieldSpec) ∈ catalog ∧
      (∃ f ∈ catalog, f.name = ascii "_CSH_EN_1_") ∧
      (∃ f ∈ catalog, f.name = ascii "_PI_DELAY_CTRL3_"))

/-- Every CHECK of one run gives the same result, the one that stands in CAT_STATUS (R103). -/
def Obligations.CheckIsConstantOverARun : Prop :=
  ∀ s t : State, StateInv s → Reaches s t →
    ∃ r : Result,
      exec .check s = .next { s with response := some (.result r) } ∧
      exec .check t = .next { t with response := some (.result r) } ∧
      (r = ⟨0x00, .valid⟩ ↔ t.catStatus = .valid) ∧
      (∀ report, r = ⟨0x03, .invalid report⟩ ↔ t.catStatus = .invalid report)

/-- A catalog that passes CHECK has widths that sum to 128, and with W5 at least 19 and at most 128 fields
(R104). -/
def Obligations.WidthsOfAValidCatalogSumTo128 : Prop :=
  ∀ catalog : List FieldSpec, checkCatalog catalog = .valid →
    (catalog.map FieldSpec.width).sum = 128 ∧
    ((∀ f ∈ catalog, f.width ≤ 7) → 19 ≤ catalog.length ∧ catalog.length ≤ 128)

/-- Under a catalog that passes CHECK, `fieldAt` is total on the 128 positions and finds the one field
whose range holds the position (R70, R105). -/
def Obligations.EveryPositionHasOneOwner : Prop :=
  ∀ (catalog : List FieldSpec) (p : Nat), checkCatalog catalog = .valid → p < 128 →
    ∃ f ∈ catalog, fieldAt catalog p = some f ∧ f.lo ≤ (p : Int) ∧ p ≤ f.off ∧
      ∀ g ∈ catalog, g.lo ≤ (p : Int) → p ≤ g.off → g = f

/-! ### ASSIGN -/

/-- ASSIGN under Clamp never fails: it returns 16 bytes in which every field holds, most significant bit
first from its offset down, the low bits of its value, 0 for a malformed input, and it warns of the
malformed fields in catalog order (R121 to R124, R209). -/
def Obligations.AssignUnderClampPacksTheLowBits : Prop :=
  ∀ (s : State) (values : FieldValues), CatalogGood s → s.mode = .clamp →
    (values.map Prod.fst).Nodup →
      ∃ bytes : ByteString,
        exec (.assign values) s = .next { s with response := some (.result ⟨0x00, .packed bytes
          ((s.params.catalog.filter fun f => (f.name, FieldIn.malformed) ∈ values).map
            FieldSpec.name)⟩) } ∧
        bytes.length = 16 ∧
        ∀ f ∈ s.params.catalog, ∀ j < f.width,
          (∀ n, InputIs values f (.val n) →
            regBit bytes (f.off - j) = n.testBit (f.width - 1 - j)) ∧
          (InputIs values f .malformed → regBit bytes (f.off - j) = false)

/-- ASSIGN under Strict packs inputs that all fit their fields, with no warning (R121 to R124). -/
def Obligations.AssignUnderStrictPacksFittingInputs : Prop :=
  ∀ (s : State) (values : FieldValues), CatalogGood s → s.mode = .strict →
    (values.map Prod.fst).Nodup →
    (∀ f ∈ s.params.catalog, ∃ n, InputIs values f (.val n) ∧ n ≤ 2 ^ f.width - 1) →
      ∃ bytes : ByteString,
        exec (.assign values) s =
          .next { s with response := some (.result ⟨0x00, .packed bytes []⟩) } ∧
        bytes.length = 16 ∧
        ∀ f ∈ s.params.catalog, ∀ j < f.width, ∀ n, InputIs values f (.val n) →
          regBit bytes (f.off - j) = n.testBit (f.width - 1 - j)

/-- ASSIGN under Strict ends with the error of the first failing field in catalog order, with no bytes and
no warnings, and writes no state (R126, R200, R202, R203). -/
def Obligations.AssignUnderStrictReportsTheFirstFailingField : Prop :=
  ∀ (s : State) (values : FieldValues) (pre : List FieldSpec) (f : FieldSpec) (post : List FieldSpec),
    s.catStatus = .valid → s.mode = .strict → (values.map Prod.fst).Nodup →
    s.params.catalog = pre ++ f :: post →
    (∀ g ∈ pre, ∃ n, InputIs values g (.val n) ∧ n ≤ 2 ^ g.width - 1) →
      (∀ n, InputIs values f (.val n) → 2 ^ f.width - 1 < n →
        exec (.assign values) s = .next { s with response := some (.result
          ⟨0x01, .outOfRange f.name n (2 ^ f.width - 1)⟩) }) ∧
      (InputIs values f .malformed →
        exec (.assign values) s = .next { s with response := some (.result
          ⟨0x02, .malformedInput f.name⟩) })

/-- The empty mapping gives 16 zero bytes and no warnings, in both modes (R135). -/
def Obligations.EmptyMappingGivesZeroBytes : Prop :=
  ∀ s : State, s.catStatus = .valid →
    exec (.assign []) s =
      .next { s with response := some (.result ⟨0x00, .packed (List.replicate 16 0) []⟩) }

/-- One more than a field's maximum is 0 under Clamp and an OutOfRangeError under Strict (R132). -/
def Obligations.OverflowByOneWrapsOrFails : Prop :=
  ∀ (s : State) (f : FieldSpec), CatalogGood s → f ∈ s.params.catalog →
    (s.mode = .clamp → exec (.assign [(f.name, .val (2 ^ f.width - 1 + 1))]) s =
      .next { s with response := some (.result ⟨0x00, .packed (List.replicate 16 0) []⟩) }) ∧
    (s.mode = .strict → exec (.assign [(f.name, .val (2 ^ f.width - 1 + 1))]) s =
      .next { s with response := some (.result
        ⟨0x01, .outOfRange f.name (2 ^ f.width) (2 ^ f.width - 1)⟩) })

/-- The order of the pairs has no effect on ASSIGN (R127). -/
def Obligations.PairOrderHasNoEffect : Prop :=
  ∀ (s : State) (values values' : FieldValues), values.Perm values' →
    exec (.assign values) s = exec (.assign values') s

/-- The catalog's order does not affect the bytes (R127). -/
def Obligations.CatalogOrderDoesNotAffectTheBytes : Prop :=
  ∀ (s : State) (values : FieldValues) (catalog' : List FieldSpec) (bytes : ByteString)
    (warnings : List FieldName),
    CatalogGood s → s.params.catalog.Perm catalog' →
    exec (.assign values) s =
      .next { s with response := some (.result ⟨0x00, .packed bytes warnings⟩) } →
    ∃ warnings' : List FieldName, warnings.Perm warnings' ∧
      exec (.assign values) { s with params := { s.params with catalog := catalog' } } =
        .next { s with params := { s.params with catalog := catalog' },
                       response := some (.result ⟨0x00, .packed bytes warnings'⟩) }

/-- ASSIGN's register is the OR, over the fields, of each resolved value shifted to its range, and a change
of one field's input changes only the bits of that field's range (R133). -/
def Obligations.FieldsAreIndependent : Prop :=
  (∀ (s : State) (values : FieldValues) (w : FieldSpec → Nat), CatalogGood s →
    (values.map Prod.fst).Nodup →
    (∀ f ∈ s.params.catalog, ∃ warn, resolve f (inputFor values f) s.mode = .ok (w f, warn)) →
      ∃ (bytes : ByteString) (warnings : List FieldName),
        exec (.assign values) s =
          .next { s with response := some (.result ⟨0x00, .packed bytes warnings⟩) } ∧
        ∀ p < 128, regBit bytes p =
          ((s.params.catalog.map fun f => w f <<< f.lo.toNat).foldl (· ||| ·) 0).testBit p) ∧
  (∀ (s : State) (values values' : FieldValues) (f : FieldSpec) (bytes bytes' : ByteString)
    (warnings warnings' : List FieldName), CatalogGood s → f ∈ s.params.catalog →
    (∀ g ∈ s.params.catalog, g ≠ f → inputFor values g = inputFor values' g) →
    exec (.assign values) s =
      .next { s with response := some (.result ⟨0x00, .packed bytes warnings⟩) } →
    exec (.assign values') s =
      .next { s with response := some (.result ⟨0x00, .packed bytes' warnings'⟩) } →
      ∀ p : Nat, p < 128 → ¬ (f.lo ≤ (p : Int) ∧ p ≤ f.off) → regBit bytes p = regBit bytes' p)

/-- The checks of one command are taken in order: Halted before DuplicateKey before the fields, and Halted
before Busy (R210). -/
def Obligations.ChecksAreTakenInOrder : Prop :=
  (∀ (s : State) (values : FieldValues),
    (s.catStatus ≠ .valid → exec (.assign values) s =
      .next { s with refused := true, response := some (.refused .halted) }) ∧
    (s.catStatus = .valid → ¬ (values.map Prod.fst).Nodup → exec (.assign values) s =
      .next { s with refused := true, response := some (.refused .duplicateKey) })) ∧
  (∀ (s : State) (data : ByteString) (timeout : Nat), data.length = 16 →
    (s.catStatus ≠ .valid →
      exec (.decode data) s =
        .next { s with refused := true, response := some (.refused .halted) } ∧
      exec (.transfer data timeout) s =
        .next { s with refused := true, response := some (.refused .halted) } ∧
      exec (.reset timeout) s =
        .next { s with refused := true, response := some (.refused .halted) }) ∧
    (s.catStatus = .valid → s.pState = .sent ∨ s.pState = .awaitingResponse →
      exec (.transfer data timeout) s =
        .next { s with refused := true, response := some (.refused .busy) } ∧
      exec (.reset timeout) s =
        .next { s with refused := true, response := some (.refused .busy) }))

/-! ### DECODE -/

/-- DECODE returns every field once, in catalog order, with the unsigned value of its range, below
2^width, and writes no state (R128, R129). -/
def Obligations.DecodeReadsEveryField : Prop :=
  ∀ (s : State) (data : ByteString), s.catStatus = .valid → data.length = 16 →
    ∃ fields : List (FieldName × Nat),
      exec (.decode data) s =
        .next { s with response := some (.result ⟨0x00, .fields fields⟩) } ∧
      List.Forall₂ (fun (f : FieldSpec) (p : FieldName × Nat) =>
        p.1 = f.name ∧ p.2 ≤ 2 ^ f.width - 1 ∧
        (f.off ≤ 127 → f.width ≤ f.off + 1 → ∀ j < f.width,
          p.2.testBit (f.width - 1 - j) = regBit data (f.off - j))) s.params.catalog fields

/-- Pack then unpack: DECODE of ASSIGN's bytes gives every field its resolved value, in catalog order
(R130). -/
def Obligations.PackThenUnpackGivesTheResolvedValues : Prop :=
  ∀ (s : State) (values : FieldValues) (bytes : ByteString) (warnings : List FieldName),
    CatalogGood s → (values.map Prod.fst).Nodup →
    exec (.assign values) s =
      .next { s with response := some (.result ⟨0x00, .packed bytes warnings⟩) } →
    ∃ fields : List (FieldName × Nat),
      exec (.decode bytes) s =
        .next { s with response := some (.result ⟨0x00, .fields fields⟩) } ∧
      List.Forall₂ (fun (f : FieldSpec) (p : FieldName × Nat) =>
        p.1 = f.name ∧
        (∃ warn, resolve f (inputFor values f) s.mode = .ok (p.2, warn)) ∧
        (∀ n, InputIs values f (.val n) → n ≤ 2 ^ f.width - 1 → p.2 = n)) s.params.catalog fields

/-- Unpack then pack: the fields DECODE returns, given back to ASSIGN, give the same bytes and no warnings,
in both modes (R131). -/
def Obligations.UnpackThenPackGivesTheSameBytes : Prop :=
  ∀ (s : State) (data : ByteString), CatalogGood s → data.length = 16 →
    ∃ fields : List (FieldName × Nat),
      exec (.decode data) s =
        .next { s with response := some (.result ⟨0x00, .fields fields⟩) } ∧
      exec (.assign (fields.map fun p => (p.1, FieldIn.val p.2))) s =
        .next { s with response := some (.result ⟨0x00, .packed data []⟩) }

/-- CHECK, ASSIGN and DECODE write no state element, and what they answer depends on the operands, the
catalog, MODE and CAT_STATUS alone, whatever the framer does (R47, R69, R134). -/
def Obligations.PackerIsPure : Prop :=
  ∀ (s s' : State) (i : Instr),
    (i = .check ∨ (∃ values, i = .assign values) ∨ (∃ data, i = .decode data)) →
    s.params = s'.params → s.mode = s'.mode → s.catStatus = s'.catStatus →
      ∃ (isRefused : Bool) (r : Response),
        exec i s = .next { s with refused := s.refused || isRefused, response := some r } ∧
        exec i s' = .next { s' with refused := s'.refused || isRefused, response := some r }

/-! ### TRANSFER, RESET and the frames -/

/-- TRANSFER, when not halted and not busy, clears RX and TX, writes the DATA frame and enters Sent; MODE,
CAT_STATUS, ELAPSED and everything else stay (R88, R161, R163). -/
def Obligations.TransferStartsTheOperation : Prop :=
  ∀ (s : State) (data : ByteString) (timeout : Nat), data.length = 16 → s.catStatus = .valid →
    s.pState ≠ .sent → s.pState ≠ .awaitingResponse →
      exec (.transfer data timeout) s = .next { s with
        rx := [], tx := [0x3C] ++ data ++ [0x3E], lineBuf := [], pOp := .transfer,
        timeoutT := timeout, pState := .sent, response := none }

/-- RESET, when not halted and not busy, clears RX and TX, writes the RESET frame and enters Sent; it is no
block reset: MODE, CAT_STATUS and everything else stay (R89, R162, R163, R231). -/
def Obligations.ResetCommandStartsTheOperation : Prop :=
  ∀ (s : State) (timeout : Nat), s.catStatus = .valid →
    s.pState ≠ .sent → s.pState ≠ .awaitingResponse →
      exec (.reset timeout) s = .next { s with
        rx := [], tx := [0x52], lineBuf := [], pOp := .reset,
        timeoutT := timeout, pState := .sent, response := none }

/-- A TRANSFER or RESET record that arrives while an operation runs is refused Busy and changes no state
element but REFUSED (R171). -/
def Obligations.SecondOperationIsRefusedBusy : Prop :=
  ∀ (s : State) (c : Command) (es : List Event), s.events = .command c :: es →
    (c.op = 0x04 ∧ c.data.length = 16) ∨ c.op = 0x05 → s.catStatus = .valid →
    s.pState = .sent ∨ s.pState = .awaitingResponse →
      step s = .next { s with events := es, refused := true, response := some (.refused .busy) }

/-- A frame at the front of TX is taken whole, in stream order, by the peer, and nothing else changes (R44,
R64, R175). That this is what the two WIRE_TX rows do is the model's reading (log entry 10). -/
def Obligations.FrameRowsAreTakenFromTheFrontOfTx : Prop :=
  (∀ (s : State) (data rest : ByteString), s.tx = [0x3C] ++ data ++ [0x3E] ++ rest →
    exec (.frameData data) s = .next { s with tx := rest, response := none }) ∧
  (∀ (s : State) (rest : ByteString), s.tx = [0x52] ++ rest →
    exec .frameReset s = .next { s with tx := rest, response := none }) ∧
  (∀ (s : State) (data : ByteString), ¬ [0x3C] ++ data ++ [0x3E] <+: s.tx →
    exec (.frameData data) s = .next { s with response := none }) ∧
  (∀ s : State, ¬ [0x52] <+: s.tx → exec .frameReset s = .next { s with response := none })

/-- A step writes to TX one whole frame or nothing: it leaves there what TX held, less bytes taken from its
front, or exactly one frame (R44, R91, R163). What TX held may be any bytes. -/
def Obligations.StepWritesOneWholeFrameOrNothing : Prop :=
  ∀ s t : State, step s = .next t →
    t.tx <:+ s.tx ∨ (∃ data : ByteString, data.length = 16 ∧ t.tx = [0x3C] ++ data ++ [0x3E]) ∨
      t.tx = [0x52]

/-- The peer's two plain steps: it takes bytes from the front of TX or appends bytes to RX, and changes
nothing else (R44, R175). -/
def Obligations.PeerStepsMoveStreamBytesOnly : Prop :=
  (∀ (s : State) (taken rest : ByteString) (es : List Event),
    s.events = .peerTake taken.length :: es → s.tx = taken ++ rest →
      step s = .next { s with events := es, tx := rest, response := none }) ∧
  (∀ (s : State) (bytes : ByteString) (es : List Event), s.events = .peerSend bytes :: es →
      step s = .next { s with events := es, rx := s.rx ++ bytes, response := none })

/-! ### The framer's steps -/

/-- In Sent the framer's next step sets ELAPSED to 0 and enters AwaitingResponse; it is always enabled
(R164). -/
def Obligations.SentEntersTheWait : Prop :=
  ∀ (s : State) (es : List Event), s.pState = .sent → s.events = .framer :: es →
    step s = .next { s with events := es, elapsed := 0, pState := .awaitingResponse,
                            response := none }

/-- A byte other than LF is popped and joins LINEBUF, unless a finite LINEBUF is full, which refuses it
LineOverflow and changes no other state element (R165, R166, R172, R208). That the refused byte stays in
RX is read from R208 (log entry 7). -/
def Obligations.ByteJoinsTheLineOrOverflows : Prop :=
  ∀ (s : State) (b : Byte) (rest : ByteString) (es : List Event),
    s.pState = .awaitingResponse → s.events = .framer :: es → s.rx = b :: rest → b ≠ 0x0A →
      (s.params.lineBufCap ≠ some s.lineBuf.length →
        step s = .next { s with events := es, rx := rest, lineBuf := s.lineBuf ++ [b],
                                response := none }) ∧
      (s.params.lineBufCap = some s.lineBuf.length →
        step s = .next { s with events := es, refused := true,
                                response := some (.refused .lineOverflow) })

/-- The LF that ends a line: LINEBUF is emptied and the line decides the operation by its tokens, the
running operation and TOKEN_PRIORITY, or is ignored (R94, R166, R167, R169). -/
def Obligations.CompleteLineIsClassified : Prop :=
  ∀ (s : State) (rest : ByteString) (es : List Event),
    s.pState = .awaitingResponse → s.events = .framer :: es → s.rx = 0x0A :: rest →
      let succ := if s.pOp = .transfer then ascii "TRANSFER_COMPLETE" else ascii "RESET_COMPLETE"
      (succ <:+: s.lineBuf →
        s.params.tokenPriority = .successFirst ∨ ¬ ascii "ERROR" <:+: s.lineBuf →
          step s = .next { s with events := es, rx := rest, lineBuf := [],
                                  pState := .completedSuccess,
                                  response := some (.result ⟨0x00, .empty⟩) }) ∧
      (ascii "ERROR" <:+: s.lineBuf →
        s.params.tokenPriority = .errorFirst ∨ ¬ succ <:+: s.lineBuf →
          step s = .next { s with events := es, rx := rest, lineBuf := [],
                                  pState := .completedError s.lineBuf,
                                  response := some (.result ⟨0x04, .message s.lineBuf⟩) }) ∧
      (¬ succ <:+: s.lineBuf → ¬ ascii "ERROR" <:+: s.lineBuf →
          step s = .next { s with events := es, rx := rest, lineBuf := [], response := none })

/-- The three WIRE_RX_LINE rows: a complete line in the wait ends the operation with its success token or
with its error, in the order of TOKEN_PRIORITY, or is ignored, and LINEBUF is emptied; outside the wait no
line is read (R93, R94, R166, R167, R169, R170). The last is the model's choice for the rows (log entry
11). -/
def Obligations.TokenRowsDecideTheOperation : Prop :=
  ∀ (s : State) (line : ByteString) (i : Instr),
    i = .tokenTransferComplete line ∨ i = .tokenResetComplete line ∨ i = .tokenError line →
      (s.pState = .awaitingResponse →
        let succ := if s.pOp = .transfer then ascii "TRANSFER_COMPLETE" else ascii "RESET_COMPLETE"
        (succ <:+: line → s.params.tokenPriority = .successFirst ∨ ¬ ascii "ERROR" <:+: line →
          exec i s = .next { s with
            lineBuf := [], pState := .completedSuccess, response := some (.result ⟨0x00, .empty⟩) }) ∧
        (ascii "ERROR" <:+: line → s.params.tokenPriority = .errorFirst ∨ ¬ succ <:+: line →
          exec i s = .next { s with
            lineBuf := [], pState := .completedError line,
            response := some (.result ⟨0x04, .message line⟩) }) ∧
        (¬ succ <:+: line → ¬ ascii "ERROR" <:+: line →
          exec i s = .next { s with lineBuf := [], response := none })) ∧
      (s.pState ≠ .awaitingResponse → exec i s = .next { s with response := none })

/-- A tick in the wait adds one to ELAPSED and ends the operation TimedOut once ELAPSED reaches TIMEOUT_T
(R168, R206). -/
def Obligations.TickCountsTowardsTheTimeout : Prop :=
  ∀ (s : State) (es : List Event), s.pState = .awaitingResponse → s.events = .tick :: es →
    (s.elapsed + 1 < s.timeoutT →
      step s = .next { s with events := es, elapsed := s.elapsed + 1, response := none }) ∧
    (s.elapsed + 1 ≥ s.timeoutT →
      step s = .next { s with events := es, elapsed := s.elapsed + 1, pState := .timedOut,
                              response := some (.result ⟨0x05, .empty⟩) })

/-- A tick outside AwaitingResponse changes nothing (R170), and a framer event changes nothing where no
framer step is enabled: outside Sent and AwaitingResponse, and in AwaitingResponse with RX empty (R160). That
such an event is a step with no change is the model's choice (log entry 4). -/
def Obligations.IdleTickAndDisabledFramerChangeNothing : Prop :=
  (∀ (s : State) (es : List Event), s.pState ≠ .awaitingResponse → s.events = .tick :: es →
    step s = .next { s with events := es, response := none }) ∧
  (∀ (s : State) (es : List Event), s.pState ≠ .sent → s.pState ≠ .awaitingResponse →
    s.events = .framer :: es → step s = .next { s with events := es, response := none }) ∧
  (∀ (s : State) (es : List Event), s.pState = .awaitingResponse → s.rx = [] →
    s.events = .framer :: es → step s = .next { s with events := es, response := none })

/-- A whole line, read byte by byte in arrival order, decides the operation with all that LINEBUF held
before it; the bytes after it stay in RX (R165, R166, R176). -/
def Obligations.WholeLineIsReadInArrivalOrder : Prop :=
  ∀ (s : State) (line rest : ByteString) (es : List Event),
    s.pState = .awaitingResponse → (0x0A : Byte) ∉ line → s.rx = line ++ [0x0A] ++ rest →
    s.events = List.replicate (line.length + 1) Event.framer ++ es →
    (∀ cap, s.params.lineBufCap = some cap → s.lineBuf.length + line.length ≤ cap) →
      (classify s.params.tokenPriority s.pOp (s.lineBuf ++ line) = .success →
        Host.Core.run Sys2Proof.core (line.length + 1) s = .next { s with
          events := es, rx := rest, lineBuf := [], pState := .completedSuccess,
          response := some (.result ⟨0x00, .empty⟩) }) ∧
      (classify s.params.tokenPriority s.pOp (s.lineBuf ++ line) = .error →
        Host.Core.run Sys2Proof.core (line.length + 1) s = .next { s with
          events := es, rx := rest, lineBuf := [], pState := .completedError (s.lineBuf ++ line),
          response := some (.result ⟨0x04, .message (s.lineBuf ++ line)⟩) }) ∧
      (classify s.params.tokenPriority s.pOp (s.lineBuf ++ line) = .nonDecisive →
        Host.Core.run Sys2Proof.core (line.length + 1) s = .next { s with
          events := es, rx := rest, lineBuf := [], response := none })

/-- A TRANSFER the peer answers with a line holding "TRANSFER_COMPLETE" before any tick ends with status
0x00 (R161, R163 to R167, R169). -/
def Obligations.AnsweredTransferSucceeds : Prop :=
  ∀ (s : State) (data line : ByteString) (timeout : Nat) (es : List Event),
    s.catStatus = .valid → s.pState ≠ .sent → s.pState ≠ .awaitingResponse → data.length = 16 →
    s.params.lineBufCap = none → (0x0A : Byte) ∉ line → ascii "TRANSFER_COMPLETE" <:+: line →
    s.params.tokenPriority = .successFirst ∨ ¬ ascii "ERROR" <:+: line →
    s.events = [.command { op := 0x04, data := data, timeout := timeout }, .framer,
        .peerSend (line ++ [0x0A])] ++ List.replicate (line.length + 1) Event.framer ++ es →
      Host.Core.run Sys2Proof.core (line.length + 4) s = .next { s with
        events := es, pState := .completedSuccess, pOp := .transfer, lineBuf := [], elapsed := 0,
        timeoutT := timeout, tx := [0x3C] ++ data ++ [0x3E], rx := [],
        response := some (.result ⟨0x00, .empty⟩) }

/-- An operation, TRANSFER or RESET, that the peer does not answer waits through every tick before its
`max(t, 1)`-th and ends TimedOut with status 0x05 at that tick (R161 to R164, R168). -/
def Obligations.UnansweredOperationTimesOutAtItsTick : Prop :=
  ∀ (s : State) (c : Command) (op : POp) (frame : ByteString) (n : Nat) (es : List Event),
    (c.op = 0x04 ∧ c.data.length = 16 ∧ op = .transfer ∧ frame = [0x3C] ++ c.data ++ [0x3E]) ∨
      (c.op = 0x05 ∧ op = .reset ∧ frame = [0x52]) →
    s.catStatus = .valid → s.pState ≠ .sent → s.pState ≠ .awaitingResponse →
    s.events = [.command c, .framer] ++ List.replicate n Event.tick ++ es →
      (n < max c.timeout 1 →
        Host.Core.run Sys2Proof.core (n + 2) s = .next { s with
          events := es, pState := .awaitingResponse, pOp := op, lineBuf := [], elapsed := n,
          timeoutT := c.timeout, tx := frame, rx := [], response := none }) ∧
      (n = max c.timeout 1 →
        Host.Core.run Sys2Proof.core (n + 2) s = .next { s with
          events := es, pState := .timedOut, pOp := op, lineBuf := [], elapsed := n,
          timeoutT := c.timeout, tx := frame, rx := [],
          response := some (.result ⟨0x05, .empty⟩) })

/-- Once in the wait, an operation with timeout `t` has ended by its `max(t, 1)`-th tick, whatever the
peer, the host and the framer do meanwhile (R177). -/
def Obligations.EveryWaitEndsWithinItsTicks : Prop :=
  ∀ (s : State) (k : Nat), s.pState = .awaitingResponse → s.elapsed = 0 →
    k ≤ s.events.length → Event.blockReset ∉ s.events.take k →
    max s.timeoutT 1 ≤ (s.events.take k).count Event.tick →
      ∃ j ≤ k, ∃ t, Host.Core.run Sys2Proof.core j s = .next t ∧
        (t.pState = .completedSuccess ∨ (∃ msg, t.pState = .completedError msg) ∨
          t.pState = .timedOut)

/-- P_STATE moves only by the rows of the table, each with its trigger, its guard and its next state, and by
the block reset (R160, R163, R164, R166 to R168, R174, R230). The framer's trigger is a framer event or an
empty schedule (the model's choice, log entry 4). The guard of the block reset row, W5 to W7, is the model's
choice too: a catalog parameter that fails them (R34, R208) is refused at every block reset (log entry
13). -/
def Obligations.FramerMovesByItsTableOnly : Prop :=
  ∀ s t : State, step s = .next t →
    let succ := if s.pOp = .transfer then ascii "TRANSFER_COMPLETE" else ascii "RESET_COMPLETE"
    t.pState = s.pState ∨
    (∃ c es, s.events = .command c :: es ∧
      s.catStatus = .valid ∧ s.pState ≠ .sent ∧ s.pState ≠ .awaitingResponse ∧
      t.pState = .sent ∧ t.timeoutT = c.timeout ∧
      ((c.op = 0x04 ∧ c.data.length = 16 ∧ t.pOp = .transfer ∧ t.tx = [0x3C] ++ c.data ++ [0x3E]) ∨
        (c.op = 0x05 ∧ t.pOp = .reset ∧ t.tx = [0x52]))) ∨
    (FramerActs s ∧ s.pState = .sent ∧ t.pState = .awaitingResponse ∧ t.elapsed = 0) ∨
    (FramerActs s ∧ s.pState = .awaitingResponse ∧ s.rx = 0x0A :: t.rx ∧ succ <:+: s.lineBuf ∧
      (s.params.tokenPriority = .successFirst ∨ ¬ ascii "ERROR" <:+: s.lineBuf) ∧
      t.pState = .completedSuccess ∧ t.lineBuf = []) ∨
    (FramerActs s ∧ s.pState = .awaitingResponse ∧ s.rx = 0x0A :: t.rx ∧
      ascii "ERROR" <:+: s.lineBuf ∧
      (s.params.tokenPriority = .errorFirst ∨ ¬ succ <:+: s.lineBuf) ∧
      t.pState = .completedError s.lineBuf ∧ t.lineBuf = []) ∨
    (s.events.head? = some .tick ∧ s.pState = .awaitingResponse ∧ s.elapsed + 1 ≥ s.timeoutT ∧
      t.pState = .timedOut ∧ t.elapsed = s.elapsed + 1) ∨
    (s.events.head? = some .blockReset ∧ KnownCatalog s.params.catalog ∧ t.pState = .idle)

/-! ### Reset, refusals and what every step keeps -/

/-- The block reset: each element takes the value of the rule, CAT_STATUS CHECK's verdict, and TX and RX
stay; a catalog parameter that fails W5 to W7 is refused (R34, R46, R208, R230). That the parameters,
REFUSED and the schedule stay, and the form of the refusal, are read from the rules (log entries 13,
14). -/
def Obligations.BlockResetSetsTheResetValues : Prop :=
  ∀ (s : State) (es : List Event), s.events = .blockReset :: es →
    (KnownCatalog s.params.catalog →
      ∃ (r : Result) (c : CatStatus),
        exec .check s = .next { s with response := some (.result r) } ∧
        step s = .next { s with
          events := es, mode := s.params.modeInput.getD .clamp, pState := .idle, pOp := .none,
          lineBuf := [], elapsed := 0, timeoutT := 0, catStatus := c, response := none } ∧
        ((r = ⟨0x00, .valid⟩ ∧ c = .valid ∧ ExactCover s.params.catalog) ∨
          (∃ report, r = ⟨0x03, .invalid report⟩ ∧ c = .invalid report ∧
            ¬ ExactCover s.params.catalog))) ∧
    (¬ KnownCatalog s.params.catalog →
      step s = .next { s with events := es, refused := true,
                              response := some (.refused .badCatalogParameter) })

/-- The state right after reset, at the start of a run, under any catalog that meets W5 to W7 and whatever
bytes the environment holds in the streams: the values of R46, with REFUSED false. A parameter that fails
them is log entry 13. -/
def Obligations.ResetLeavesTheResetValues : Prop :=
  ∀ (p : Params) (tx rx : ByteString), KnownCatalog p.catalog →
    (State.boot p tx rx).mode = p.modeInput.getD .clamp ∧
    (∀ (s : State) (r : Result), s.params.catalog = p.catalog →
      exec .check s = .next { s with response := some (.result r) } →
        (r = ⟨0x00, .valid⟩ ∧ (State.boot p tx rx).catStatus = .valid) ∨
        (∃ report, r = ⟨0x03, .invalid report⟩ ∧
          (State.boot p tx rx).catStatus = .invalid report)) ∧
    (State.boot p tx rx).pState = .idle ∧ (State.boot p tx rx).pOp = .none ∧
    (State.boot p tx rx).lineBuf = [] ∧ (State.boot p tx rx).elapsed = 0 ∧
    (State.boot p tx rx).timeoutT = 0 ∧ (State.boot p tx rx).tx = tx ∧
    (State.boot p tx rx).rx = rx ∧ (State.boot p tx rx).refused = false

/-- Every step keeps the invariant of the state (R38, R39, R41, R42, R103, R168, R204). -/
def Obligations.EveryStepKeepsTheInvariant : Prop :=
  ∀ s t : State, StateInv s → step s = .next t → StateInv t

/-- The invariant holds after a block reset under any parameters and with any bytes in the streams. The
catalog and the empty streams of `State.reset` are the model's choices (log entries 2 and 3). -/
def Obligations.ResetMeetsTheInvariant : Prop :=
  (∀ (p : Params) (tx rx : ByteString), StateInv (State.boot p tx rx)) ∧ StateInv State.reset

/-- A refusal sets REFUSED and changes no other state element (R208). -/
def Obligations.RefusalChangesNothingElse : Prop :=
  ∀ (s t : State) (reason : RefuseReason), step s = .next t →
    t.response = some (.refused reason) →
      t = { s with events := s.events.tail, refused := true, response := some (.refused reason) }

/-- REFUSED, once set, is never cleared (R45). -/
def Obligations.RefusedIsNeverCleared : Prop :=
  ∀ s t : State, s.refused = true → Reaches s t → t.refused = true

/-- No step changes the catalog or another parameter, and MODE holds one value for a whole run (R35,
R38). -/
def Obligations.CatalogAndModeAreFixed : Prop :=
  ∀ s t : State, StateInv s → Reaches s t → t.params = s.params ∧ t.mode = s.mode

/-- While CAT_STATUS is Invalid the block is halted: whatever the schedule, no operation starts, TX gets no
byte, and only a block reset could end it (R204). -/
def Obligations.HaltedBlockWritesNoFrame : Prop :=
  ∀ s t : State, StateInv s → s.catStatus ≠ .valid → Reaches s t →
    t.catStatus = s.catStatus ∧ t.pState = .idle ∧ t.tx <:+ s.tx

/-! ### The host's duties -/

/-- A duration is converted to the least number of ticks that is not shorter, for a positive poll interval
(R86). -/
def Obligations.DurationsRoundUpToTicks : Prop :=
  ∀ pollInterval duration : Nat, 0 < pollInterval →
    duration ≤ ticksOf pollInterval duration * pollInterval ∧
    ∀ n, duration ≤ n * pollInterval → ticksOf pollInterval duration ≤ n

/-- CONFIGURE: the host first issues ASSIGN of the values; after its status 0x00 the host's next record is
the TRANSFER of its bytes, and after any other answer there is none (R97). -/
def Obligations.ConfigureTransfersWhatAssignPacked : Prop :=
  (∀ values : FieldValues, decode (.host (configureFirst values)) = .ok (.assign values)) ∧
  (∀ (s : State) (values : FieldValues) (timeout : Nat) (t : State) (answer : Response),
    exec (.assign values) s = .next t → t.response = some answer →
      (∀ bytes warnings, answer = .result ⟨0x00, .packed bytes warnings⟩ →
        ∃ c, configureNext answer timeout = some c ∧
          decode (.host c) = .ok (.transfer bytes timeout)) ∧
      ((∀ bytes warnings, answer ≠ .result ⟨0x00, .packed bytes warnings⟩) →
        configureNext answer timeout = none))
end

