-- ==== Sys2Proof/Laws/Bits.lean ====
section
/-! SUPPORT. What the bit operations of Machine/Operands.lean do, each said once, bit by bit. -/

namespace Sys2Proof.Machine

theorem writeBit_getLsbD (reg : Reg) (i : Nat) (b : Bool) (p : Nat) (hi : i < 128) :
    (writeBit reg (i : Int) b).getLsbD p = if p = i then b else reg.getLsbD p := by
  show (if b then reg ||| ((1 : Reg) <<< i) else reg &&& ~~~((1 : Reg) <<< i)).getLsbD p = _
  by_cases hp : p < 128
  · by_cases h : p = i
    · subst h; cases b <;> simp [hp]
    · have : p - i = 0 → p < i := by omega
      cases b <;> simp [hp, h] <;> omega
  · have h : p ≠ i := by omega
    simp [h, BitVec.getLsbD_of_ge _ _ (Nat.le_of_not_lt hp)]

@[simp] theorem readBit_natCast (reg : Reg) (i : Nat) : readBit reg (i : Int) = reg.getLsbD i := rfl

/-- Under W2 the least significant position of a field is a position (R33). -/
theorem lo_eq {f : FieldSpec} (hw : f.width ≤ f.off + 1) :
    f.lo = ((f.off + 1 - f.width : Nat) : Int) := by
  unfold FieldSpec.lo; omega

/-- The first `n` bits of a field written, from its most significant bit down. -/
theorem foldl_writeBit_getLsbD (w off width : Nat) (hoff : off ≤ 127) (hw : width ≤ off + 1) (p : Nat) :
    ∀ (n : Nat) (reg : Reg), n ≤ width →
      ((List.range n).foldl (fun r (j : Nat) => writeBit r ((off : Int) - (j : Int)) (w.testBit (width - 1 - j))) reg).getLsbD p =
        if off + 1 ≤ p + n ∧ p ≤ off then w.testBit (p + width - (off + 1)) else reg.getLsbD p
  | 0, reg, _ => by
    have : ¬ (off + 1 ≤ p + 0 ∧ p ≤ off) := by omega
    rw [if_neg this]; rfl
  | n + 1, reg, hn => by
    have hi : (off : Int) - (n : Int) = ((off - n : Nat) : Int) := by omega
    rw [List.range_succ, List.foldl_append, List.foldl_cons, List.foldl_nil, hi,
      writeBit_getLsbD _ _ _ _ (by omega),
      foldl_writeBit_getLsbD w off width hoff hw p n reg (by omega)]
    by_cases h : p = off - n
    · have h1 : off + 1 ≤ p + (n + 1) ∧ p ≤ off := by omega
      have h2 : width - 1 - n = p + width - (off + 1) := by omega
      rw [if_pos h, if_pos h1, h2]
    · have h1 : (off + 1 ≤ p + (n + 1) ∧ p ≤ off) ↔ (off + 1 ≤ p + n ∧ p ≤ off) := by omega
      rw [if_neg h]; simp only [h1]

/-- Everything a field insert does (R65, R124): the field's positions take the value's bits, most
significant first, and every other position stays. -/
theorem insertField_getLsbD (reg : Reg) (f : FieldSpec) (w p : Nat) (hoff : f.off ≤ 127)
    (hw : f.width ≤ f.off + 1) :
    (insertField reg f w).getLsbD p =
      if f.off + 1 ≤ p + f.width ∧ p ≤ f.off then w.testBit ((p : Int) - f.lo).toNat
      else reg.getLsbD p := by
  have h := foldl_writeBit_getLsbD w f.off f.width hoff hw p f.width reg (Nat.le_refl _)
  rw [insertField, h]
  by_cases hc : f.off + 1 ≤ p + f.width ∧ p ≤ f.off
  · have : p + f.width - (f.off + 1) = ((p : Int) - f.lo).toNat := by unfold FieldSpec.lo; omega
    rw [if_pos hc, if_pos hc, this]
  · rw [if_neg hc, if_neg hc]

theorem bitSum_lt (b : Nat → Bool) : ∀ n, ((List.range n).map fun j => (b j).toNat * 2 ^ j).sum < 2 ^ n
  | 0 => by simp
  | n + 1 => by
    have ih := bitSum_lt b n
    rw [List.range_succ, List.map_append, List.sum_append, List.map_singleton, List.sum_singleton,
      Nat.pow_succ]
    cases b n <;> simp <;> omega

theorem bitSum_testBit (b : Nat → Bool) (k : Nat) :
    ∀ n, k < n → (((List.range n).map fun j => (b j).toNat * 2 ^ j).sum).testBit k = b k
  | 0, h => absurd h (Nat.not_lt_zero _)
  | n + 1, h => by
    have hlt := bitSum_lt b n
    rw [List.range_succ, List.map_append, List.sum_append, List.map_singleton, List.sum_singleton,
      Nat.add_comm, Nat.mul_comm]
    rw [Nat.testBit_two_pow_mul_add _ hlt]
    by_cases hk : k < n
    · rw [if_pos hk]; exact bitSum_testBit b k n hk
    · have : k = n := by omega
      subst this
      cases b k <;> simp

/-- A field's value stays below 2^width (R128). -/
theorem extractField_lt (reg : Reg) (f : FieldSpec) : extractField reg f < 2 ^ f.width :=
  bitSum_lt (fun (j : Nat) => readBit reg (f.lo + (j : Int))) f.width

/-- Everything a field extract reads (R129). -/
theorem extractField_testBit (reg : Reg) (f : FieldSpec) (k : Nat) :
    (extractField reg f).testBit k = (decide (k < f.width) && readBit reg (f.lo + (k : Int))) := by
  by_cases hk : k < f.width
  · rw [decide_eq_true hk, Bool.true_and]
    exact bitSum_testBit (fun (j : Nat) => readBit reg (f.lo + (j : Int))) k f.width hk
  · rw [decide_eq_false hk, Bool.false_and]
    exact Nat.testBit_lt_two_pow
      (Nat.lt_of_lt_of_le (extractField_lt reg f) (Nat.pow_le_pow_right (by omega) (by omega)))

/-- Under W2 a field extract reads the register's bits from `lo` up (R129). -/
theorem readBit_lo_add (reg : Reg) {f : FieldSpec} (hw : f.width ≤ f.off + 1) (k : Nat) :
    readBit reg (f.lo + (k : Int)) = reg.getLsbD (f.off + 1 - f.width + k) := by
  rw [lo_eq hw, ← Int.natCast_add, readBit_natCast]

@[simp] theorem bytesOfReg_length (reg : Reg) : (bytesOfReg reg).length = 16 := by
  simp [bytesOfReg, Config.nBytes]

/-- The packed bytes hold the register's bits (R61). -/
theorem regBit_bytesOfReg (reg : Reg) (p : Nat) (hp : p < 128) :
    regBit (bytesOfReg reg) p = reg.getLsbD p := by
  have h1 : 15 - p / 8 < 16 := by omega
  have h2 : p % 8 < 8 := Nat.mod_lt _ (by omega)
  have h3 : 120 - 8 * (15 - p / 8) + p % 8 = p := by omega
  simp [regBit, bytesOfReg, Config.nBytes, h1, h2, h3]

/-- Bytes to register, one byte more (R61). -/
theorem foldl_bytes_getLsbD (p : Nat) (hp : p < 128) :
    ∀ (bytes : ByteString) (reg : Reg),
      (bytes.foldl (fun (r : Reg) b => (r <<< 8) ||| b.setWidth 128) reg).getLsbD p =
        if p < 8 * bytes.length then ((bytes[bytes.length - 1 - p / 8]?).getD 0).getLsbD (p % 8)
        else reg.getLsbD (p - 8 * bytes.length)
  | [], reg => by simp
  | b :: bs, reg => by
    rw [List.foldl_cons, foldl_bytes_getLsbD p hp bs]
    simp only [List.length_cons]
    by_cases h : p < 8 * bs.length
    · have h1 : p < 8 * (bs.length + 1) := by omega
      have h2 : bs.length + 1 - 1 - p / 8 = (bs.length - 1 - p / 8) + 1 := by omega
      rw [if_pos h, if_pos h1, h2, List.getElem?_cons_succ]
    · rw [if_neg h]
      by_cases h1 : p < 8 * (bs.length + 1)
      · have h2 : bs.length + 1 - 1 - p / 8 = 0 := by omega
        have h3 : p - 8 * bs.length = p % 8 := by omega
        have h4 : p % 8 < 8 := Nat.mod_lt _ (by omega)
        rw [if_pos h1, h2, h3]
        simp [h4]; omega
      · have h2 : ¬ (p - 8 * bs.length < 8) := by omega
        have h3 : p - 8 * bs.length - 8 = p - 8 * (bs.length + 1) := by omega
        have h4 : p - 8 * bs.length < 128 := by omega
        have h5 : b.getLsbD (p - 8 * bs.length) = false := BitVec.getLsbD_of_ge _ _ (by omega)
        rw [if_neg h1]
        simp [h2, h3, h4, h5, BitVec.getLsbD_eq_getElem (show p - 8 * (bs.length + 1) < 128 by omega)]

/-- The register of 16 bytes holds their bits (R61). -/
theorem regOfBytes_getLsbD (bytes : ByteString) (p : Nat) (hl : bytes.length = 16) (hp : p < 128) :
    (regOfBytes bytes).getLsbD p = regBit bytes p := by
  have h := foldl_bytes_getLsbD p hp bytes 0
  rw [if_pos (by omega)] at h
  rw [regOfBytes, h, regBit, hl]

/-- Two byte strings of 16 bytes with the same register bits are equal. -/
theorem bytes_ext {a b : ByteString} (ha : a.length = 16) (hb : b.length = 16)
    (h : ∀ p < 128, regBit a p = regBit b p) : a = b := by
  apply List.ext_getElem (by omega)
  intro i hi hi'
  apply BitVec.eq_of_getLsbD_eq
  intro k hk
  have hp := h (8 * (15 - i) + k) (by omega)
  have h1 : 15 - (8 * (15 - i) + k) / 8 = i := by omega
  have h2 : (8 * (15 - i) + k) % 8 = k := by omega
  simpa [regBit, h1, h2, hi, hi'] using hp

theorem bytesOfReg_regOfBytes (bytes : ByteString) (h : bytes.length = 16) :
    bytesOfReg (regOfBytes bytes) = bytes :=
  bytes_ext (bytesOfReg_length _) h fun p hp => by
    rw [regBit_bytesOfReg _ p hp, regOfBytes_getLsbD bytes p h hp]

theorem regOfBytes_bytesOfReg (reg : Reg) : regOfBytes (bytesOfReg reg) = reg := by
  apply BitVec.eq_of_getLsbD_eq
  intro p hp
  rw [regOfBytes_getLsbD _ p (bytesOfReg_length _) hp, regBit_bytesOfReg _ p hp]

end Sys2Proof.Machine
end

