-- ==== Sys2Proof/Laws/Assign.lean ====
section
/-! SUPPORT. Everything ASSIGN's loop over the catalog can do, said once, and the bits a run of field
inserts leaves. -/

namespace Sys2Proof.Machine

/-- Clamp keeps the low `width` bits of every value (R122). -/
@[simp] theorem resolve_clamp_val (f : FieldSpec) (n : Nat) :
    resolve f (.val n) .clamp = .ok (n % 2 ^ f.width, false) := by
  have hpos := Nat.two_pow_pos f.width
  unfold resolve
  by_cases h : n ≤ f.max
  · have hlt : n < 2 ^ f.width := by unfold FieldSpec.max at h; omega
    simp [h, Nat.mod_eq_of_lt hlt]
  · simp [h]

@[simp] theorem resolve_clamp_malformed (f : FieldSpec) :
    resolve f .malformed .clamp = .ok (0, true) := rfl

theorem resolve_strict_val_of_le {f : FieldSpec} {n : Nat} (h : n ≤ f.max) :
    resolve f (.val n) .strict = .ok (n, false) := by
  simp [resolve, h]

theorem resolve_strict_val_of_lt {f : FieldSpec} {n : Nat} (h : f.max < n) :
    resolve f (.val n) .strict = .error (.outOfRange f.name n f.max) := by
  simp [resolve, Nat.not_le_of_lt h]

@[simp] theorem resolve_strict_malformed (f : FieldSpec) :
    resolve f .malformed .strict = .error (.malformed f.name) := rfl

/-- A value in range resolves to itself in both modes (R122). -/
theorem resolve_val_of_le {f : FieldSpec} {n : Nat} (mode : Mode) (h : n ≤ f.max) :
    resolve f (.val n) mode = .ok (n, false) := by
  cases mode <;> simp [resolve, h]

/-- A resolved value fits its field (R122). -/
theorem resolve_le_max {f : FieldSpec} {x : FieldIn} {mode : Mode} {r : Nat × Bool}
    (h : resolve f x mode = .ok r) : r.1 ≤ f.max := by
  have hpos := Nat.two_pow_pos f.width
  cases mode with
  | clamp =>
    cases x with
    | val n =>
      rw [resolve_clamp_val] at h
      cases h
      have := Nat.mod_lt n hpos
      unfold FieldSpec.max; simp only; omega
    | malformed => cases h; simp
  | strict =>
    cases x with
    | val n =>
      by_cases hn : n ≤ f.max
      · rw [resolve_strict_val_of_le hn] at h; cases h; exact hn
      · rw [resolve_strict_val_of_lt (Nat.lt_of_not_le hn)] at h; cases h
    | malformed => cases h

/-- Every field resolves: the loop inserts every value and collects the names that warn (R123). -/
theorem assignFields_ok (mode : Mode) (values : FieldValues) (w : FieldSpec → Nat × Bool) :
    ∀ (fs : List FieldSpec) (reg : Reg) (warnings : List FieldName),
      (∀ f ∈ fs, resolve f (inputFor values f) mode = .ok (w f)) →
        assignFields mode values fs reg warnings =
          .ok (fs.foldl (fun r f => insertField r f (w f).1) reg,
               warnings ++ (fs.filter fun f => (w f).2).map FieldSpec.name)
  | [], reg, warnings, _ => by simp [assignFields]
  | f :: fs, reg, warnings, h => by
    have hf := h f List.mem_cons_self
    have ih := assignFields_ok mode values w fs (insertField reg f (w f).1)
      (if (w f).2 then warnings ++ [f.name] else warnings) fun g hg => h g (List.mem_cons_of_mem _ hg)
    simp only [assignFields, hf]
    rw [ih]
    cases hw : (w f).2 <;> simp [hw]

/-- The first field that does not resolve ends the loop with its error (R126). -/
theorem assignFields_error (mode : Mode) (values : FieldValues) (f : FieldSpec) (e : PackError)
    (post : List FieldSpec) (hf : resolve f (inputFor values f) mode = .error e) :
    ∀ (pre : List FieldSpec) (reg : Reg) (warnings : List FieldName),
      (∀ g ∈ pre, ∃ r, resolve g (inputFor values g) mode = .ok r) →
        assignFields mode values (pre ++ f :: post) reg warnings = .error e
  | [], reg, warnings, _ => by simp [assignFields, hf]
  | g :: pre, reg, warnings, h => by
    obtain ⟨r, hr⟩ := h g List.mem_cons_self
    simp only [List.cons_append, assignFields, hr]
    exact assignFields_error mode values f e post hf pre _ _ fun k hk => h k (List.mem_cons_of_mem _ hk)

/-- One of the two holds for every run of the loop. -/
theorem assignFields_cases (mode : Mode) (values : FieldValues) (fs : List FieldSpec) :
    (∃ w : FieldSpec → Nat × Bool, ∀ f ∈ fs, resolve f (inputFor values f) mode = .ok (w f)) ∨
    (∃ pre f post e, fs = pre ++ f :: post ∧ resolve f (inputFor values f) mode = .error e ∧
      ∀ g ∈ pre, ∃ r, resolve g (inputFor values g) mode = .ok r) := by
  induction fs with
  | nil => exact .inl ⟨fun _ => (0, false), by simp⟩
  | cons f fs ih =>
    cases hf : resolve f (inputFor values f) mode with
    | error e => exact .inr ⟨[], f, fs, e, rfl, hf, by simp⟩
    | ok r =>
      rcases ih with ⟨w, hw⟩ | ⟨pre, g, post, e, rfl, hg, hpre⟩
      · refine .inl ⟨fun k => if k = f then r else w k, fun k hk => ?_⟩
        by_cases h : k = f
        · subst h; simpa using hf
        · rcases List.mem_cons.mp hk with h' | h'
          · exact absurd h' h
          · simpa [h] using hw k h'
      · refine .inr ⟨f :: pre, g, post, e, rfl, hg, fun k hk => ?_⟩
        rcases List.mem_cons.mp hk with h' | h'
        · exact ⟨r, h' ▸ hf⟩
        · exact hpre k h'

/-- Position `p` lies in the range of `f` (R33). -/
def inFieldRange (f : FieldSpec) (p : Nat) : Prop := f.off + 1 ≤ p + f.width ∧ p ≤ f.off

/-- A position no field of the list covers keeps its bit. -/
theorem foldl_insertField_of_uncovered (w : FieldSpec → Nat) (p : Nat) :
    ∀ (fs : List FieldSpec) (reg : Reg),
      (∀ f ∈ fs, f.off ≤ 127 ∧ f.width ≤ f.off + 1) → (∀ f ∈ fs, ¬ inFieldRange f p) →
        (fs.foldl (fun r f => insertField r f (w f)) reg).getLsbD p = reg.getLsbD p
  | [], reg, _, _ => rfl
  | f :: fs, reg, hb, hu => by
    obtain ⟨h1, h2⟩ := hb f List.mem_cons_self
    rw [List.foldl_cons, foldl_insertField_of_uncovered w p fs _
      (fun g hg => hb g (List.mem_cons_of_mem _ hg)) (fun g hg => hu g (List.mem_cons_of_mem _ hg)),
      insertField_getLsbD _ _ _ _ h1 h2]
    exact if_neg (hu f List.mem_cons_self)

/-- A position that every covering field gives the same bit holds that bit. -/
theorem foldl_insertField_getLsbD (w : FieldSpec → Nat) (p : Nat) (bit : Bool) :
    ∀ (fs : List FieldSpec) (reg : Reg),
      (∀ f ∈ fs, f.off ≤ 127 ∧ f.width ≤ f.off + 1) →
      (∀ f ∈ fs, inFieldRange f p → (w f).testBit ((p : Int) - f.lo).toNat = bit) →
      (∃ f ∈ fs, inFieldRange f p) →
        (fs.foldl (fun r f => insertField r f (w f)) reg).getLsbD p = bit
  | [], reg, _, _, h => by simp at h
  | f :: fs, reg, hb, hw, h => by
    obtain ⟨h1, h2⟩ := hb f List.mem_cons_self
    have hb' := fun g hg => hb g (List.mem_cons_of_mem f hg)
    have hw' := fun g hg => hw g (List.mem_cons_of_mem f hg)
    rw [List.foldl_cons]
    by_cases hrest : ∃ g ∈ fs, inFieldRange g p
    · exact foldl_insertField_getLsbD w p bit fs _ hb' hw' hrest
    · have hu : ∀ g ∈ fs, ¬ inFieldRange g p := fun g hg hc => hrest ⟨g, hg, hc⟩
      have hf : inFieldRange f p := by
        obtain ⟨g, hg, hc⟩ := h
        rcases List.mem_cons.mp hg with rfl | hg
        · exact hc
        · exact absurd ⟨g, hg, hc⟩ hrest
      rw [foldl_insertField_of_uncovered w p fs _ hb' hu, insertField_getLsbD _ _ _ _ h1 h2,
        if_pos (show f.off + 1 ≤ p + f.width ∧ p ≤ f.off from hf)]
      exact hw f List.mem_cons_self hf

/-- The input of a field is the one its name is paired with, where names are distinct (R84, R121). -/
theorem inputFor_eq_of_inputIs {values : FieldValues} {f : FieldSpec} {x : FieldIn}
    (hn : (values.map Prod.fst).Nodup) (h : InputIs values f x) : inputFor values f = x := by
  unfold inputFor
  rcases h with h | ⟨h, rfl⟩
  · induction values with
    | nil => simp at h
    | cons p ps ih =>
      rw [List.map_cons, List.nodup_cons] at hn
      rcases List.mem_cons.mp h with rfl | h
      · simp [List.lookup]
      · have hne : f.name ≠ p.1 := fun he => hn.1 (he ▸ List.mem_map_of_mem (f := Prod.fst) h)
        have : (f.name == p.1) = false := beq_false_of_ne hne
        simpa [List.lookup, this] using ih hn.2 h
  · have : values.lookup f.name = none := by
      rw [List.lookup_eq_none_iff]
      intro p hp
      exact bne_iff_ne.mpr fun he => h (he ▸ List.mem_map_of_mem (f := Prod.fst) hp)
    simp [this]

/-- Every field has an input (R121). -/
theorem inputIs_inputFor (values : FieldValues) (f : FieldSpec) :
    InputIs values f (inputFor values f) := by
  unfold inputFor
  induction values with
  | nil => exact .inr ⟨by simp, rfl⟩
  | cons p ps ih =>
    obtain ⟨n, x⟩ := p
    by_cases he : f.name = n
    · subst he; exact .inl (by simp [List.lookup])
    · have : (f.name == n) = false := beq_false_of_ne he
      simp only [List.lookup, this]
      rcases ih with h | ⟨h, hx⟩
      · exact .inl (List.mem_cons_of_mem _ h)
      · refine .inr ⟨?_, hx⟩
        simp only [List.map_cons, List.mem_cons, not_or]
        exact ⟨he, h⟩

end Sys2Proof.Machine
end

