-- ==== Sys2Proof/Laws/Catalog.lean ====
section
/-! SUPPORT. The verdict of the self-check in the words of conditions W1 to W4 (spec 10_state R34,
40_catalog R100, R101). -/

namespace Sys2Proof.Machine

theorem widthOk_iff (f : FieldSpec) : widthOk f = true ↔ 1 ≤ f.width := by simp [widthOk]

theorem inRange_iff (f : FieldSpec) : inRange f = true ↔ f.off ≤ 127 ∧ f.width ≤ f.off + 1 := by
  simp only [inRange, Bool.and_eq_true, decide_eq_true_eq]
  unfold FieldSpec.lo; omega

theorem occupies_iff (f : FieldSpec) (i : Nat) :
    occupies f i = true ↔
      (f.off ≤ 127 ∧ f.width ≤ f.off + 1) ∧ 1 ≤ f.width ∧ f.off + 1 ≤ i + f.width ∧ i ≤ f.off := by
  simp only [occupies, covers, inRange, widthOk, Bool.and_eq_true, decide_eq_true_eq]
  unfold FieldSpec.lo; omega

theorem mem_firstOccurrences (n : FieldName) : ∀ ns, n ∈ firstOccurrences ns ↔ n ∈ ns
  | [] => by simp [firstOccurrences]
  | m :: ns => by
    by_cases h : n = m <;> simp [firstOccurrences, h, mem_firstOccurrences n ns]

theorem firstOccurrences_nodup : ∀ ns, (firstOccurrences ns).Nodup
  | [] => by simp [firstOccurrences]
  | m :: ns => by
    simp only [firstOccurrences, List.nodup_cons, List.mem_filter]
    exact ⟨by simp, (firstOccurrences_nodup ns).filter _⟩

/-- A name is reported exactly when two or more fields bear it (R100). -/
theorem mem_duplicateNames (catalog : List FieldSpec) (n : FieldName) :
    n ∈ duplicateNames catalog ↔ 2 ≤ (catalog.map FieldSpec.name).count n := by
  simp only [duplicateNames, List.mem_filter, mem_firstOccurrences, decide_eq_true_eq]
  exact ⟨fun h => h.2, fun h => ⟨List.count_pos_iff.mp (by omega), h⟩⟩

theorem duplicateNames_eq_nil_iff (catalog : List FieldSpec) :
    duplicateNames catalog = [] ↔ (catalog.map FieldSpec.name).Nodup := by
  rw [List.nodup_iff_count_le_one]
  constructor
  · intro h n
    by_contra hc
    have := (mem_duplicateNames catalog n).mpr (by omega)
    rw [h] at this
    simp at this
  · intro h
    refine List.eq_nil_iff_forall_not_mem.mpr fun n hn => ?_
    have := (mem_duplicateNames catalog n).mp hn
    have := h n
    omega

theorem clean_iff (r : Report) :
    r.clean = true ↔ r.badWidth = [] ∧ r.outOfRange = [] ∧ r.gaps = [] ∧ r.overlaps = [] ∧
      r.dupNames = [] := by
  simp [Report.clean, and_assoc]

theorem checkCatalog_valid_iff_clean (catalog : List FieldSpec) :
    checkCatalog catalog = .valid ↔ (violations catalog).clean = true := by
  unfold checkCatalog
  cases h : (violations catalog).clean <;> simp [h]

/-- Under W1 and W2 the fields that count for a position are those whose range contains it. -/
theorem coverCount_eq (catalog : List FieldSpec) (hw : ∀ f ∈ catalog, 1 ≤ f.width)
    (hb : ∀ f ∈ catalog, f.off ≤ 127 ∧ f.width ≤ f.off + 1) (i : Nat) :
    coverCount catalog i =
      (catalog.filter fun f => f.off + 1 ≤ i + f.width ∧ i ≤ f.off).length := by
  unfold coverCount
  congr 1
  apply List.filter_congr
  intro f hf
  have h := occupies_iff f i
  simp only [hb f hf, hw f hf, true_and, and_self] at h
  rw [Bool.eq_iff_iff, h]; simp

/-- CHECK passes exactly on the catalogs that meet W1 to W4 (R34, R100, R101). -/
theorem checkCatalog_valid_iff (catalog : List FieldSpec) :
    checkCatalog catalog = .valid ↔ ExactCover catalog := by
  rw [checkCatalog_valid_iff_clean, clean_iff]
  simp only [violations, List.map_eq_nil_iff, List.filter_eq_nil_iff, List.mem_range,
    duplicateNames_eq_nil_iff, decide_eq_true_eq, Config.regWidth]
  constructor
  · rintro ⟨h1, h2, h3, h4, h5⟩
    have hw : ∀ f ∈ catalog, 1 ≤ f.width := fun f hf => by
      simpa [widthOk, Nat.one_le_iff_ne_zero] using h1 f hf
    have hb : ∀ f ∈ catalog, f.off ≤ 127 ∧ f.width ≤ f.off + 1 := fun f hf => by
      have := h2 f hf
      rw [(widthOk_iff f).mpr (hw f hf)] at this
      exact (inRange_iff f).mp (by simpa using this)
    refine ⟨hw, hb, fun i hi => ?_, h5⟩
    have h3 := h3 i hi
    have h4 := h4 i hi
    rw [coverCount_eq catalog hw hb] at h3 h4
    omega
  · intro h
    refine ⟨fun f hf => by simp [widthOk]; have := h.width f hf; omega,
      fun f hf => by simp [(inRange_iff f).mpr (h.bounds f hf)], fun i hi => ?_, fun i hi => ?_, h.names⟩
    · rw [coverCount_eq catalog h.width h.bounds, h.once i hi]; omega
    · rw [coverCount_eq catalog h.width h.bounds, h.once i hi]; omega

/-- The model accepts a catalog parameter exactly where W5 to W7 hold (R34, R36). -/
theorem admissible_iff (catalog : List FieldSpec) :
    admissible catalog = true ↔ KnownCatalog catalog := by
  have h : admissible catalog = true ↔
      (∀ f ∈ catalog, f.width ≤ 7) ∧
      (∀ f ∈ Config.requiredEntries, f ∈ catalog) ∧
      ∀ n ∈ Config.requiredNames, ∃ f ∈ catalog, f.name = n := by
    simp [admissible, meetsW5, meetsW6, meetsW7, and_assoc]
    exact fun _ _ => Iff.rfl
  rw [h]
  constructor
  · rintro ⟨h5, h6, h7⟩
    exact ⟨h5, ⟨h6 _ (by simp [Config.requiredEntries]), h6 _ (by simp [Config.requiredEntries]),
      h6 _ (by simp [Config.requiredEntries])⟩, h7 _ (by simp [Config.requiredNames]),
      h7 _ (by simp [Config.requiredNames])⟩
  · rintro ⟨h5, ⟨a, b, c⟩, d, e⟩
    exact ⟨h5, by simpa [Config.requiredEntries] using ⟨a, b, c⟩,
      by simpa [Config.requiredNames] using ⟨d, e⟩⟩

/-- Under an exact cover every position has an owner, and no other field covers it. -/
theorem ExactCover.owner {catalog : List FieldSpec} (h : ExactCover catalog) (p : Nat) (hp : p < 128) :
    ∃ f ∈ catalog, inFieldRange f p ∧ ∀ g ∈ catalog, inFieldRange g p → g = f := by
  obtain ⟨f, hf⟩ := List.length_eq_one_iff.mp (h.once p hp)
  have hmem : ∀ g, g ∈ catalog ∧ inFieldRange g p ↔ g = f := fun g => by
    have : g ∈ (catalog.filter fun f => f.off + 1 ≤ p + f.width ∧ p ≤ f.off) ↔ g = f := by
      rw [hf]; simp
    rw [← this, List.mem_filter]
    simp [inFieldRange]
  obtain ⟨h1, h2⟩ := (hmem f).mpr rfl
  exact ⟨f, h1, h2, fun g hg hc => (hmem g).mp ⟨hg, hc⟩⟩

end Sys2Proof.Machine
end

