-- ==== Sys2Proof/Laws/State.lean ====
section
/-! SUPPORT. One lemma per field of State for every update of Machine/Ops.lean that is a plain record
update, so that no proof unfolds one. -/

namespace Sys2Proof.Machine

section QuietFields
variable (s : State)

@[simp] theorem quiet_params : (quiet s).params = s.params := rfl
@[simp] theorem quiet_mode : (quiet s).mode = s.mode := rfl
@[simp] theorem quiet_catStatus : (quiet s).catStatus = s.catStatus := rfl
@[simp] theorem quiet_pState : (quiet s).pState = s.pState := rfl
@[simp] theorem quiet_pOp : (quiet s).pOp = s.pOp := rfl
@[simp] theorem quiet_lineBuf : (quiet s).lineBuf = s.lineBuf := rfl
@[simp] theorem quiet_elapsed : (quiet s).elapsed = s.elapsed := rfl
@[simp] theorem quiet_timeoutT : (quiet s).timeoutT = s.timeoutT := rfl
@[simp] theorem quiet_tx : (quiet s).tx = s.tx := rfl
@[simp] theorem quiet_rx : (quiet s).rx = s.rx := rfl
@[simp] theorem quiet_refused : (quiet s).refused = s.refused := rfl
@[simp] theorem quiet_response : (quiet s).response = none := rfl
@[simp] theorem quiet_events : (quiet s).events = s.events := rfl

end QuietFields

section ReplyFields
variable (r : Result) (s : State)

@[simp] theorem reply_params : (reply r s).params = s.params := rfl
@[simp] theorem reply_mode : (reply r s).mode = s.mode := rfl
@[simp] theorem reply_catStatus : (reply r s).catStatus = s.catStatus := rfl
@[simp] theorem reply_pState : (reply r s).pState = s.pState := rfl
@[simp] theorem reply_pOp : (reply r s).pOp = s.pOp := rfl
@[simp] theorem reply_lineBuf : (reply r s).lineBuf = s.lineBuf := rfl
@[simp] theorem reply_elapsed : (reply r s).elapsed = s.elapsed := rfl
@[simp] theorem reply_timeoutT : (reply r s).timeoutT = s.timeoutT := rfl
@[simp] theorem reply_tx : (reply r s).tx = s.tx := rfl
@[simp] theorem reply_rx : (reply r s).rx = s.rx := rfl
@[simp] theorem reply_refused : (reply r s).refused = s.refused := rfl
@[simp] theorem reply_response : (reply r s).response = some (.result r) := rfl
@[simp] theorem reply_events : (reply r s).events = s.events := rfl

end ReplyFields

section RefuseFields
variable (reason : RefuseReason) (s : State)

@[simp] theorem refuse_params : (refuse reason s).params = s.params := rfl
@[simp] theorem refuse_mode : (refuse reason s).mode = s.mode := rfl
@[simp] theorem refuse_catStatus : (refuse reason s).catStatus = s.catStatus := rfl
@[simp] theorem refuse_pState : (refuse reason s).pState = s.pState := rfl
@[simp] theorem refuse_pOp : (refuse reason s).pOp = s.pOp := rfl
@[simp] theorem refuse_lineBuf : (refuse reason s).lineBuf = s.lineBuf := rfl
@[simp] theorem refuse_elapsed : (refuse reason s).elapsed = s.elapsed := rfl
@[simp] theorem refuse_timeoutT : (refuse reason s).timeoutT = s.timeoutT := rfl
@[simp] theorem refuse_tx : (refuse reason s).tx = s.tx := rfl
@[simp] theorem refuse_rx : (refuse reason s).rx = s.rx := rfl
@[simp] theorem refuse_refused : (refuse reason s).refused = true := rfl
@[simp] theorem refuse_response : (refuse reason s).response = some (.refused reason) := rfl
@[simp] theorem refuse_events : (refuse reason s).events = s.events := rfl

end RefuseFields

section RxClearFields
variable (s : State)

@[simp] theorem rxClear_params : (rxClear s).params = s.params := rfl
@[simp] theorem rxClear_mode : (rxClear s).mode = s.mode := rfl
@[simp] theorem rxClear_catStatus : (rxClear s).catStatus = s.catStatus := rfl
@[simp] theorem rxClear_pState : (rxClear s).pState = s.pState := rfl
@[simp] theorem rxClear_pOp : (rxClear s).pOp = s.pOp := rfl
@[simp] theorem rxClear_lineBuf : (rxClear s).lineBuf = s.lineBuf := rfl
@[simp] theorem rxClear_elapsed : (rxClear s).elapsed = s.elapsed := rfl
@[simp] theorem rxClear_timeoutT : (rxClear s).timeoutT = s.timeoutT := rfl
@[simp] theorem rxClear_tx : (rxClear s).tx = s.tx := rfl
@[simp] theorem rxClear_rx : (rxClear s).rx = [] := rfl
@[simp] theorem rxClear_refused : (rxClear s).refused = s.refused := rfl
@[simp] theorem rxClear_response : (rxClear s).response = s.response := rfl
@[simp] theorem rxClear_events : (rxClear s).events = s.events := rfl

end RxClearFields

section TxClearFields
variable (s : State)

@[simp] theorem txClear_params : (txClear s).params = s.params := rfl
@[simp] theorem txClear_mode : (txClear s).mode = s.mode := rfl
@[simp] theorem txClear_catStatus : (txClear s).catStatus = s.catStatus := rfl
@[simp] theorem txClear_pState : (txClear s).pState = s.pState := rfl
@[simp] theorem txClear_pOp : (txClear s).pOp = s.pOp := rfl
@[simp] theorem txClear_lineBuf : (txClear s).lineBuf = s.lineBuf := rfl
@[simp] theorem txClear_elapsed : (txClear s).elapsed = s.elapsed := rfl
@[simp] theorem txClear_timeoutT : (txClear s).timeoutT = s.timeoutT := rfl
@[simp] theorem txClear_tx : (txClear s).tx = [] := rfl
@[simp] theorem txClear_rx : (txClear s).rx = s.rx := rfl
@[simp] theorem txClear_refused : (txClear s).refused = s.refused := rfl
@[simp] theorem txClear_response : (txClear s).response = s.response := rfl
@[simp] theorem txClear_events : (txClear s).events = s.events := rfl

end TxClearFields

section TxWriteFields
variable (bytes : ByteString) (s : State)

@[simp] theorem txWrite_params : (txWrite bytes s).params = s.params := rfl
@[simp] theorem txWrite_mode : (txWrite bytes s).mode = s.mode := rfl
@[simp] theorem txWrite_catStatus : (txWrite bytes s).catStatus = s.catStatus := rfl
@[simp] theorem txWrite_pState : (txWrite bytes s).pState = s.pState := rfl
@[simp] theorem txWrite_pOp : (txWrite bytes s).pOp = s.pOp := rfl
@[simp] theorem txWrite_lineBuf : (txWrite bytes s).lineBuf = s.lineBuf := rfl
@[simp] theorem txWrite_elapsed : (txWrite bytes s).elapsed = s.elapsed := rfl
@[simp] theorem txWrite_timeoutT : (txWrite bytes s).timeoutT = s.timeoutT := rfl
@[simp] theorem txWrite_tx : (txWrite bytes s).tx = s.tx ++ bytes := rfl
@[simp] theorem txWrite_rx : (txWrite bytes s).rx = s.rx := rfl
@[simp] theorem txWrite_refused : (txWrite bytes s).refused = s.refused := rfl
@[simp] theorem txWrite_response : (txWrite bytes s).response = s.response := rfl
@[simp] theorem txWrite_events : (txWrite bytes s).events = s.events := rfl

end TxWriteFields

section StartFields
variable (op : POp) (frame : ByteString) (t : Nat) (s : State)

@[simp] theorem start_params : (start op frame t s).params = s.params := rfl
@[simp] theorem start_mode : (start op frame t s).mode = s.mode := rfl
@[simp] theorem start_catStatus : (start op frame t s).catStatus = s.catStatus := rfl
@[simp] theorem start_pState : (start op frame t s).pState = .sent := rfl
@[simp] theorem start_pOp : (start op frame t s).pOp = op := rfl
@[simp] theorem start_lineBuf : (start op frame t s).lineBuf = [] := rfl
@[simp] theorem start_elapsed : (start op frame t s).elapsed = s.elapsed := rfl
@[simp] theorem start_timeoutT : (start op frame t s).timeoutT = t := rfl
@[simp] theorem start_tx : (start op frame t s).tx = frame := rfl
@[simp] theorem start_rx : (start op frame t s).rx = [] := rfl
@[simp] theorem start_refused : (start op frame t s).refused = s.refused := rfl
@[simp] theorem start_response : (start op frame t s).response = none := rfl
@[simp] theorem start_events : (start op frame t s).events = s.events := rfl

end StartFields

section FinishFields
variable (p : PState) (s : State)

@[simp] theorem finish_params : (finish p s).params = s.params := rfl
@[simp] theorem finish_mode : (finish p s).mode = s.mode := rfl
@[simp] theorem finish_catStatus : (finish p s).catStatus = s.catStatus := rfl
@[simp] theorem finish_pState : (finish p s).pState = p := rfl
@[simp] theorem finish_pOp : (finish p s).pOp = s.pOp := rfl
@[simp] theorem finish_lineBuf : (finish p s).lineBuf = s.lineBuf := rfl
@[simp] theorem finish_elapsed : (finish p s).elapsed = s.elapsed := rfl
@[simp] theorem finish_timeoutT : (finish p s).timeoutT = s.timeoutT := rfl
@[simp] theorem finish_tx : (finish p s).tx = s.tx := rfl
@[simp] theorem finish_rx : (finish p s).rx = s.rx := rfl
@[simp] theorem finish_refused : (finish p s).refused = s.refused := rfl
@[simp] theorem finish_response : (finish p s).response = (outcome p).map .result := rfl
@[simp] theorem finish_events : (finish p s).events = s.events := rfl

end FinishFields

section EnterWaitFields
variable (s : State)

@[simp] theorem enterWait_params : (enterWait s).params = s.params := rfl
@[simp] theorem enterWait_mode : (enterWait s).mode = s.mode := rfl
@[simp] theorem enterWait_catStatus : (enterWait s).catStatus = s.catStatus := rfl
@[simp] theorem enterWait_pState : (enterWait s).pState = .awaitingResponse := rfl
@[simp] theorem enterWait_pOp : (enterWait s).pOp = s.pOp := rfl
@[simp] theorem enterWait_lineBuf : (enterWait s).lineBuf = s.lineBuf := rfl
@[simp] theorem enterWait_elapsed : (enterWait s).elapsed = 0 := rfl
@[simp] theorem enterWait_timeoutT : (enterWait s).timeoutT = s.timeoutT := rfl
@[simp] theorem enterWait_tx : (enterWait s).tx = s.tx := rfl
@[simp] theorem enterWait_rx : (enterWait s).rx = s.rx := rfl
@[simp] theorem enterWait_refused : (enterWait s).refused = s.refused := rfl
@[simp] theorem enterWait_response : (enterWait s).response = none := rfl
@[simp] theorem enterWait_events : (enterWait s).events = s.events := rfl

end EnterWaitFields

section PopLfFields
variable (rest : ByteString) (s : State)

@[simp] theorem popLf_params : (popLf rest s).params = s.params := rfl
@[simp] theorem popLf_mode : (popLf rest s).mode = s.mode := rfl
@[simp] theorem popLf_catStatus : (popLf rest s).catStatus = s.catStatus := rfl
@[simp] theorem popLf_pState : (popLf rest s).pState = s.pState := rfl
@[simp] theorem popLf_pOp : (popLf rest s).pOp = s.pOp := rfl
@[simp] theorem popLf_lineBuf : (popLf rest s).lineBuf = s.lineBuf := rfl
@[simp] theorem popLf_elapsed : (popLf rest s).elapsed = s.elapsed := rfl
@[simp] theorem popLf_timeoutT : (popLf rest s).timeoutT = s.timeoutT := rfl
@[simp] theorem popLf_tx : (popLf rest s).tx = s.tx := rfl
@[simp] theorem popLf_rx : (popLf rest s).rx = rest := rfl
@[simp] theorem popLf_refused : (popLf rest s).refused = s.refused := rfl
@[simp] theorem popLf_response : (popLf rest s).response = s.response := rfl
@[simp] theorem popLf_events : (popLf rest s).events = s.events := rfl

end PopLfFields

section ClearLineFields
variable (s : State)

@[simp] theorem clearLine_params : (clearLine s).params = s.params := rfl
@[simp] theorem clearLine_mode : (clearLine s).mode = s.mode := rfl
@[simp] theorem clearLine_catStatus : (clearLine s).catStatus = s.catStatus := rfl
@[simp] theorem clearLine_pState : (clearLine s).pState = s.pState := rfl
@[simp] theorem clearLine_pOp : (clearLine s).pOp = s.pOp := rfl
@[simp] theorem clearLine_lineBuf : (clearLine s).lineBuf = [] := rfl
@[simp] theorem clearLine_elapsed : (clearLine s).elapsed = s.elapsed := rfl
@[simp] theorem clearLine_timeoutT : (clearLine s).timeoutT = s.timeoutT := rfl
@[simp] theorem clearLine_tx : (clearLine s).tx = s.tx := rfl
@[simp] theorem clearLine_rx : (clearLine s).rx = s.rx := rfl
@[simp] theorem clearLine_refused : (clearLine s).refused = s.refused := rfl
@[simp] theorem clearLine_response : (clearLine s).response = s.response := rfl
@[simp] theorem clearLine_events : (clearLine s).events = s.events := rfl

end ClearLineFields

section PeerTakeFields
variable (n : Nat) (s : State)

@[simp] theorem peerTake_params : (peerTake n s).params = s.params := rfl
@[simp] theorem peerTake_mode : (peerTake n s).mode = s.mode := rfl
@[simp] theorem peerTake_catStatus : (peerTake n s).catStatus = s.catStatus := rfl
@[simp] theorem peerTake_pState : (peerTake n s).pState = s.pState := rfl
@[simp] theorem peerTake_pOp : (peerTake n s).pOp = s.pOp := rfl
@[simp] theorem peerTake_lineBuf : (peerTake n s).lineBuf = s.lineBuf := rfl
@[simp] theorem peerTake_elapsed : (peerTake n s).elapsed = s.elapsed := rfl
@[simp] theorem peerTake_timeoutT : (peerTake n s).timeoutT = s.timeoutT := rfl
@[simp] theorem peerTake_tx : (peerTake n s).tx = s.tx.drop n := rfl
@[simp] theorem peerTake_rx : (peerTake n s).rx = s.rx := rfl
@[simp] theorem peerTake_refused : (peerTake n s).refused = s.refused := rfl
@[simp] theorem peerTake_response : (peerTake n s).response = none := rfl
@[simp] theorem peerTake_events : (peerTake n s).events = s.events := rfl

end PeerTakeFields

section PeerSendFields
variable (bytes : ByteString) (s : State)

@[simp] theorem peerSend_params : (peerSend bytes s).params = s.params := rfl
@[simp] theorem peerSend_mode : (peerSend bytes s).mode = s.mode := rfl
@[simp] theorem peerSend_catStatus : (peerSend bytes s).catStatus = s.catStatus := rfl
@[simp] theorem peerSend_pState : (peerSend bytes s).pState = s.pState := rfl
@[simp] theorem peerSend_pOp : (peerSend bytes s).pOp = s.pOp := rfl
@[simp] theorem peerSend_lineBuf : (peerSend bytes s).lineBuf = s.lineBuf := rfl
@[simp] theorem peerSend_elapsed : (peerSend bytes s).elapsed = s.elapsed := rfl
@[simp] theorem peerSend_timeoutT : (peerSend bytes s).timeoutT = s.timeoutT := rfl
@[simp] theorem peerSend_tx : (peerSend bytes s).tx = s.tx := rfl
@[simp] theorem peerSend_rx : (peerSend bytes s).rx = s.rx ++ bytes := rfl
@[simp] theorem peerSend_refused : (peerSend bytes s).refused = s.refused := rfl
@[simp] theorem peerSend_response : (peerSend bytes s).response = none := rfl
@[simp] theorem peerSend_events : (peerSend bytes s).events = s.events := rfl

end PeerSendFields

end Sys2Proof.Machine
end

