-- ==== Sys2Proof/Laws/Ops.lean ====
section
/-! SUPPORT. Everything each shared operation with a choice in it can do, said once. -/

namespace Sys2Proof.Machine

theorem halted_eq_false_iff (s : State) : halted s = false ↔ s.catStatus = .valid := by
  simp [halted]

theorem halted_eq_true_iff (s : State) : halted s = true ↔ s.catStatus ≠ .valid := by
  simp [halted]

theorem busy_eq_true_iff (s : State) :
    busy s = true ↔ s.pState = .sent ∨ s.pState = .awaitingResponse := by
  simp [busy]

theorem busy_eq_false_iff (s : State) :
    busy s = false ↔ s.pState ≠ .sent ∧ s.pState ≠ .awaitingResponse := by
  simp [busy]

/-- TRANSFER and RESET are refused Halted, else refused Busy, else started (R161, R162, R210). -/
theorem beginOperation_cases (op : POp) (frame : ByteString) (t : Nat) (s : State) :
    (halted s = true ∧ beginOperation op frame t s = refuse .halted s) ∨
    (halted s = false ∧ busy s = true ∧ beginOperation op frame t s = refuse .busy s) ∨
    (halted s = false ∧ busy s = false ∧ beginOperation op frame t s = start op frame t s) := by
  unfold beginOperation
  cases halted s <;> cases busy s <;> simp

/-- A byte of a line is refused for want of room, or joins LINEBUF (R166, R172). -/
theorem takeByte_cases (b : Byte) (rest : ByteString) (s : State) :
    (s.params.lineBufCap = some s.lineBuf.length ∧ takeByte b rest s = refuse .lineOverflow s) ∨
    (s.params.lineBufCap ≠ some s.lineBuf.length ∧
      takeByte b rest s = { s with rx := rest, lineBuf := s.lineBuf ++ [b], response := none }) := by
  unfold takeByte
  by_cases h : s.params.lineBufCap = some s.lineBuf.length
  · simp [h]
  · simp [h, quiet]

/-- A complete line in the wait decides the operation as `classify` says; elsewhere nothing is read
(R166, R167, R170). -/
theorem lineDone_cases (line : ByteString) (s : State) :
    (s.pState ≠ .awaitingResponse ∧ lineDone line s = quiet s) ∨
    (s.pState = .awaitingResponse ∧ classify s.params.tokenPriority s.pOp line = .success ∧
      lineDone line s = finish .completedSuccess (clearLine s)) ∨
    (s.pState = .awaitingResponse ∧ classify s.params.tokenPriority s.pOp line = .error ∧
      lineDone line s = finish (.completedError line) (clearLine s)) ∨
    (s.pState = .awaitingResponse ∧ classify s.params.tokenPriority s.pOp line = .nonDecisive ∧
      lineDone line s = quiet (clearLine s)) := by
  unfold lineDone
  cases s.pState <;> cases classify s.params.tokenPriority s.pOp line <;> simp

/-- A tick ends the wait, lets it go on, or finds no wait (R168, R170). -/
theorem tick_cases (s : State) :
    (s.pState ≠ .awaitingResponse ∧ tick s = quiet s) ∨
    (s.pState = .awaitingResponse ∧ s.timeoutT ≤ s.elapsed + 1 ∧
      tick s = finish .timedOut { s with elapsed := s.elapsed + 1 }) ∨
    (s.pState = .awaitingResponse ∧ s.elapsed + 1 < s.timeoutT ∧
      tick s = quiet { s with elapsed := s.elapsed + 1 }) := by
  unfold tick
  by_cases h : s.timeoutT ≤ s.elapsed + 1
  · cases s.pState <;> simp [h]
  · cases s.pState <;> simp [h, Nat.lt_of_not_le h]

/-- The peer takes the frame where TX begins with it, and nothing else (R44, R175). -/
theorem takeFrame_cases (frame : ByteString) (s : State) :
    (∃ rest, s.tx = frame ++ rest ∧ takeFrame frame s = { s with tx := rest, response := none }) ∨
    (¬ frame <+: s.tx ∧ takeFrame frame s = quiet s) := by
  unfold takeFrame
  by_cases h : frame.isPrefixOf s.tx = true
  · obtain ⟨rest, hr⟩ := List.isPrefixOf_iff_prefix.mp h
    refine Or.inl ⟨rest, hr.symm, ?_⟩
    rw [if_pos h]
    simp [quiet, ← hr]
  · refine Or.inr ⟨fun hp => h (List.isPrefixOf_iff_prefix.mpr hp), ?_⟩
    rw [if_neg h]

/-- A block reset takes effect, or the catalog parameter is refused (R34, R230). -/
theorem resetBlock_cases (s : State) :
    (admissible s.params.catalog = true ∧
      resetBlock s = { s with
        mode := s.params.modeInput.getD .clamp, pState := .idle, pOp := .none, lineBuf := [],
        elapsed := 0, timeoutT := 0, catStatus := checkCatalog s.params.catalog, response := none }) ∨
    (admissible s.params.catalog = false ∧ resetBlock s = refuse .badCatalogParameter s) := by
  unfold resetBlock
  cases h : admissible s.params.catalog <;> simp [quiet]

/-- The classes of a line under both priorities (R167). -/
theorem classify_success_iff (priority : TokenPriority) (op : POp) (line : ByteString) :
    classify priority op line = .success ↔
      containsToken (successToken op) line = true ∧
        (priority = .errorFirst → containsToken tokError line = false) := by
  unfold classify
  cases priority <;> cases containsToken (successToken op) line <;>
    cases containsToken tokError line <;> simp

theorem classify_error_iff (priority : TokenPriority) (op : POp) (line : ByteString) :
    classify priority op line = .error ↔
      containsToken tokError line = true ∧
        (priority = .successFirst → containsToken (successToken op) line = false) := by
  unfold classify
  cases priority <;> cases containsToken (successToken op) line <;>
    cases containsToken tokError line <;> simp

theorem classify_nonDecisive_iff (priority : TokenPriority) (op : POp) (line : ByteString) :
    classify priority op line = .nonDecisive ↔
      containsToken tokError line = false ∧ containsToken (successToken op) line = false := by
  unfold classify
  cases priority <;> cases containsToken (successToken op) line <;>
    cases containsToken tokError line <;> simp

/-- The substring search finds contiguous substrings (R14, R94). -/
theorem containsToken_iff (tok : ByteString) :
    ∀ line, containsToken tok line = true ↔ tok <:+: line
  | [] => by simp [containsToken]
  | b :: bs => by
    rw [containsToken, Bool.or_eq_true, List.isPrefixOf_iff_prefix, containsToken_iff tok bs,
      List.infix_cons_iff]

/-- A line the decoder rejects holds no token of any operation (R94). -/
theorem decodeLine_error_iff (line : ByteString) :
    (∃ e, decodeLine line = .error e) ↔
      containsToken tokTransferComplete line = false ∧ containsToken tokResetComplete line = false ∧
        containsToken tokError line = false := by
  unfold decodeLine
  cases containsToken tokTransferComplete line <;> cases containsToken tokResetComplete line <;>
    cases containsToken tokError line <;> simp

theorem classify_of_decodeLine_error {line : ByteString} {e : DecodeError}
    (h : decodeLine line = .error e) (priority : TokenPriority) (op : POp) :
    classify priority op line = .nonDecisive := by
  obtain ⟨h1, h2, h3⟩ := (decodeLine_error_iff line).mp ⟨e, h⟩
  refine (classify_nonDecisive_iff priority op line).mpr ⟨h3, ?_⟩
  unfold successToken
  split <;> assumption

/-- The decoder rejects a host record for the length of its data alone (R85, R86). -/
theorem decodeHost_error {c : Command} {e : DecodeError} (h : decodeHost c = .error e) :
    e = .badOperandLength ∧ c.data.length ≠ 16 := by
  have hd : (decide (c.data.length = Config.nBytes) = true) ↔ c.data.length = 16 := by
    exact decide_eq_true_iff
  unfold decodeHost at h
  split at h <;> try cases h
  all_goals
    split at h
    · cases h
    · rename_i hn
      exact ⟨by cases h; rfl, fun hl => hn (hd.mpr hl)⟩

end Sys2Proof.Machine
end

