-- ==== Sys2Proof/Laws/PerInstr.lean ====
section
/-! SUPPORT. One lemma per instruction: the encoding of a well-formed instruction lies in its own row of
spec/opcode_table.json, with the row's fixed bits or its token (spec 30_encoding R82, R83, R88, R89,
R92, R93). -/

namespace Sys2Proof.Laws.OpcodeRow

open Sys2Proof.Machine

/-- An encoding matches the row of an instruction: the row's space, its fixed bits, its length, its
token. -/
def Matches : Instr → Encoded → Prop
  | .check, e => ∃ c, e = .host c ∧ c.op = 0x01
  | .assign _, e => ∃ c, e = .host c ∧ c.op = 0x02
  | .decode _, e => ∃ c, e = .host c ∧ c.op = 0x03 ∧ c.data.length = 16
  | .transfer _ _, e => ∃ c, e = .host c ∧ c.op = 0x04 ∧ c.data.length = 16
  | .reset _, e => ∃ c, e = .host c ∧ c.op = 0x05
  | .illegal _, e => ∃ c, e = .host c ∧ (c.op = 0x00 ∨ 0x06 ≤ c.op.toNat)
  | .frameData _, e =>
    ∃ bytes, e = .wire bytes ∧ bytes.length = 18 ∧ bytes[0]? = some 0x3C ∧ bytes[17]? = some 0x3E
  | .frameReset, e => e = .wire [0x52]
  | .tokenTransferComplete _, e =>
    ∃ line, e = .line line ∧ ascii "TRANSFER_COMPLETE" <:+: line ∧ 0x0A ∉ line
  | .tokenResetComplete _, e =>
    ∃ line, e = .line line ∧ ascii "RESET_COMPLETE" <:+: line ∧ 0x0A ∉ line
  | .tokenError _, e => ∃ line, e = .line line ∧ ascii "ERROR" <:+: line ∧ 0x0A ∉ line

/-- The encoding of a well-formed instruction matches its row. -/
def Statement (i : Instr) : Prop := i.wf = true → Matches i (encode i)

theorem check : Statement .check := fun _ => ⟨_, rfl, rfl⟩

theorem assign (values : FieldValues) : Statement (.assign values) := fun _ => ⟨_, rfl, rfl⟩

theorem decode (data : ByteString) : Statement (.decode data) :=
  fun h => ⟨_, rfl, rfl, by simpa [Instr.wf, Config.nBytes] using h⟩

theorem transfer (data : ByteString) (timeout : Nat) : Statement (.transfer data timeout) :=
  fun h => ⟨_, rfl, rfl, by simpa [Instr.wf, Config.nBytes] using h⟩

theorem reset (timeout : Nat) : Statement (.reset timeout) := fun _ => ⟨_, rfl, rfl⟩

theorem illegal (op : Byte) : Statement (.illegal op) := by
  intro h
  refine ⟨_, rfl, ?_⟩
  simp only [Instr.wf, decide_eq_true_eq] at h
  exact h.imp_left fun h => BitVec.eq_of_toNat_eq h

theorem frameData (data : ByteString) : Statement (.frameData data) := by
  intro h
  have h : data.length = 16 := by simpa [Instr.wf, Config.nBytes] using h
  refine ⟨_, rfl, ?_, rfl, ?_⟩ <;>
    simp [dataFrame, h, startDelimiter, endDelimiter]

theorem frameReset : Statement .frameReset := fun _ => rfl

theorem tokenTransferComplete (line : ByteString) : Statement (.tokenTransferComplete line) := by
  intro h
  simp only [Instr.wf, Bool.and_eq_true, decide_eq_true_eq, containsToken_iff] at h
  exact ⟨line, rfl, h.1, h.2⟩

theorem tokenResetComplete (line : ByteString) : Statement (.tokenResetComplete line) := by
  intro h
  simp only [Instr.wf, Bool.and_eq_true, decide_eq_true_eq, containsToken_iff] at h
  exact ⟨line, rfl, h.1.1, h.2⟩

theorem tokenError (line : ByteString) : Statement (.tokenError line) := by
  intro h
  simp only [Instr.wf, Bool.and_eq_true, decide_eq_true_eq, containsToken_iff] at h
  exact ⟨line, rfl, h.1.1.1, h.2⟩

end Sys2Proof.Laws.OpcodeRow
end

