-- ==== Sys2Proof/Laws/Step.lean ====
section
/-! SUPPORT. Everything one step can do, said once (spec 42_protocol R160 and 00_scope R6), for invariants
to be proved over. -/

namespace Sys2Proof.Machine

/-- The state with its next event taken off the schedule. -/
def consumeEvent (s : State) : State := { s with events := s.events.tail }

@[simp] theorem consumeEvent_params (s : State) : (consumeEvent s).params = s.params := rfl
@[simp] theorem consumeEvent_mode (s : State) : (consumeEvent s).mode = s.mode := rfl
@[simp] theorem consumeEvent_catStatus (s : State) : (consumeEvent s).catStatus = s.catStatus := rfl
@[simp] theorem consumeEvent_pState (s : State) : (consumeEvent s).pState = s.pState := rfl
@[simp] theorem consumeEvent_pOp (s : State) : (consumeEvent s).pOp = s.pOp := rfl
@[simp] theorem consumeEvent_lineBuf (s : State) : (consumeEvent s).lineBuf = s.lineBuf := rfl
@[simp] theorem consumeEvent_elapsed (s : State) : (consumeEvent s).elapsed = s.elapsed := rfl
@[simp] theorem consumeEvent_timeoutT (s : State) : (consumeEvent s).timeoutT = s.timeoutT := rfl
@[simp] theorem consumeEvent_tx (s : State) : (consumeEvent s).tx = s.tx := rfl
@[simp] theorem consumeEvent_rx (s : State) : (consumeEvent s).rx = s.rx := rfl
@[simp] theorem consumeEvent_refused (s : State) : (consumeEvent s).refused = s.refused := rfl
@[simp] theorem consumeEvent_response (s : State) : (consumeEvent s).response = s.response := rfl
@[simp] theorem consumeEvent_events (s : State) : (consumeEvent s).events = s.events.tail := rfl

/-- The operation a command record starts and the frame it writes (R88, R89, R161, R162). -/
inductive Starts (c : Command) : POp → ByteString → Prop where
  | data : c.op = 0x04 → c.data.length = 16 → Starts c .transfer (dataFrame c.data)
  | reset : c.op = 0x05 → Starts c .reset resetFrame

/-- The effects a step of `s` can have, each as its operation on the state that has the event consumed. -/
inductive StepEffect (s : State) : State → Prop where
  | quiet : StepEffect s (quiet (consumeEvent s))
  | reply (r : Result) : StepEffect s (reply r (consumeEvent s))
  | refuse (reason : RefuseReason) : StepEffect s (refuse reason (consumeEvent s))
  | start (op : POp) (frame : ByteString) (c : Command) (es : List Event) :
      s.events = .command c :: es → Starts c op frame →
      s.catStatus = .valid → s.pState ≠ .sent → s.pState ≠ .awaitingResponse →
      StepEffect s (start op frame c.timeout (consumeEvent s))
  | peerTake (n : Nat) : StepEffect s (peerTake n (consumeEvent s))
  | peerSend (bytes : ByteString) : StepEffect s (peerSend bytes (consumeEvent s))
  | tick : s.events.head? = some .tick → s.pState = .awaitingResponse →
      StepEffect s (tick (consumeEvent s))
  | blockReset : s.events.head? = some .blockReset → admissible s.params.catalog = true →
      StepEffect s (resetBlock (consumeEvent s))
  | enterWait : FramerActs s → s.pState = .sent → StepEffect s (enterWait (consumeEvent s))
  | takeByte (b : Byte) (rest : ByteString) : FramerActs s → s.pState = .awaitingResponse → s.rx = b :: rest →
      b ≠ lf → StepEffect s (takeByte b rest (consumeEvent s))
  | line (rest : ByteString) : FramerActs s → s.pState = .awaitingResponse → s.rx = lf :: rest →
      StepEffect s (lineDone s.lineBuf (popLf rest (consumeEvent s)))

/-- What becomes of a fetched event. -/
def finishFetch (f : Fetched) : Host.Outcome State Fault Refusal :=
  match f with
  | .run i s' => exec i s'
  | .done s' => .next s'

theorem step_eq (s : State) : step s = finishFetch (fetch s) := by
  unfold step finishFetch
  cases fetch s <;> rfl

/-- A complete line comes to `lineDone`, whichever row its tokens make it, or none (R94, R166). -/
theorem finishFetch_fetchLine (rest : ByteString) (s : State) (hp : s.pState = .awaitingResponse) :
    finishFetch (fetchLine rest s) = .next (lineDone s.lineBuf (popLf rest s)) := by
  unfold fetchLine
  cases hd : decodeLine s.lineBuf with
  | error e =>
    simp only [decode, hd, finishFetch]
    rcases lineDone_cases s.lineBuf (popLf rest s) with ⟨h, _⟩ | ⟨_, h, _⟩ | ⟨_, h, _⟩ | ⟨_, _, h⟩
    · exact absurd hp h
    · rw [classify_of_decodeLine_error hd] at h; cases h
    · rw [classify_of_decodeLine_error hd] at h; cases h
    · rw [h]
  | ok i =>
    simp only [decode, hd, finishFetch]
    unfold decodeLine at hd
    repeat' split at hd
    all_goals cases hd <;> rfl

theorem fetchFramer_effect {s u t : State} (ha : FramerActs s) (hu : u = consumeEvent s)
    (h : finishFetch (fetchFramer u) = .next t) : StepEffect s t := by
  have hps : u.pState = s.pState := by rw [hu]; rfl
  have hrs : u.rx = s.rx := by rw [hu]; rfl
  have hls : u.lineBuf = s.lineBuf := by rw [hu]; rfl
  unfold fetchFramer at h
  cases hp : u.pState <;> cases hr : u.rx <;> simp only [hp, hr] at h
  case sent.nil => cases h; rw [hu]; exact .enterWait ha (hps ▸ hp)
  case sent.cons => cases h; rw [hu]; exact .enterWait ha (hps ▸ hp)
  case awaitingResponse.cons b rest =>
    by_cases hb : b = lf
    · rw [if_pos hb, finishFetch_fetchLine rest u hp] at h
      cases h
      rw [hls, hu]
      exact .line rest ha (hps ▸ hp) (hrs ▸ hb ▸ hr)
    · rw [if_neg hb] at h
      cases h
      rw [hu]
      exact .takeByte b rest ha (hps ▸ hp) (hrs ▸ hr) hb
  all_goals cases h; rw [hu]; exact .quiet

theorem beginOperation_effect {s : State} {c : Command} {es : List Event} (op : POp)
    (frame : ByteString) (he : s.events = .command c :: es) (hf : Starts c op frame) :
    StepEffect s (beginOperation op frame c.timeout (consumeEvent s)) := by
  rcases beginOperation_cases op frame c.timeout (consumeEvent s) with ⟨_, e⟩ | ⟨_, _, e⟩ | ⟨h1, h2, e⟩ <;>
    rw [e]
  · exact .refuse _
  · exact .refuse _
  · obtain ⟨h3, h4⟩ := (busy_eq_false_iff _).mp h2
    exact .start op frame c es he hf ((halted_eq_false_iff _).mp h1) h3 h4

theorem fetchCommand_effect {s t : State} {c : Command} {es : List Event}
    (he : s.events = .command c :: es)
    (h : finishFetch (fetchCommand c (consumeEvent s)) = .next t) : StepEffect s t := by
  unfold fetchCommand at h
  simp only [decode] at h
  cases hd : decodeHost c with
  | error e => simp only [hd] at h; cases h; exact .refuse _
  | ok i =>
    simp only [hd, finishFetch] at h
    have hop : ∀ n : Nat, n < 256 → c.op.toNat = n → c.op = BitVec.ofNat 8 n := fun n hn hc => by
      apply BitVec.eq_of_toNat_eq; rw [hc, BitVec.toNat_ofNat, Nat.mod_eq_of_lt hn]
    unfold decodeHost at hd
    split at hd
    · cases hd; cases h; exact .reply _
    · cases hd
      simp only [exec, execAssign] at h
      cases h
      repeat' split
      all_goals first | exact .refuse _ | exact .reply _
    · split at hd
      · cases hd
        simp only [exec, execDecode] at h
        cases h
        repeat' split
        all_goals first | exact .refuse _ | exact .reply _
      · cases hd
    · rename_i hn
      split at hd
      · rename_i hl
        cases hd
        simp only [exec, execTransfer] at h
        cases h
        split
        · exact .refuse _
        · exact beginOperation_effect _ _ he (.data (hop 4 (by omega) hn) (of_decide_eq_true hl))
      · cases hd
    · rename_i hn
      cases hd; cases h
      exact beginOperation_effect _ _ he (.reset (hop 5 (by omega) hn))
    · cases hd; cases h; exact .refuse _

theorem takeFrame_effect (s : State) (frame : ByteString) :
    StepEffect s (takeFrame frame (consumeEvent s)) := by
  unfold takeFrame
  split
  · exact .peerTake frame.length
  · exact .quiet

/-- Everything one step can do. -/
theorem step_effect {s t : State} (h : step s = .next t) : StepEffect s t := by
  rw [step_eq] at h
  unfold fetch at h
  cases he : s.events with
  | nil =>
    simp only [he] at h
    have hs : s = consumeEvent s := by cases s; simp_all [consumeEvent]
    exact fetchFramer_effect (.inl he) hs h
  | cons e es =>
    have hs : ({ s with events := es } : State) = consumeEvent s := by simp [consumeEvent, he]
    simp only [he, hs] at h
    cases e with
    | command c => exact fetchCommand_effect he h
    | framer => exact fetchFramer_effect (.inr (by rw [he]; rfl)) rfl h
    | peerTake n => cases h; exact .peerTake n
    | peerSend bytes => cases h; exact .peerSend bytes
    | peerFrame =>
      simp only [fetchEvent, fetchFrame] at h
      cases hd : decode (.wire (consumeEvent s).tx) with
      | error e => simp only [hd] at h; cases h; exact .quiet
      | ok i =>
        simp only [hd, finishFetch] at h
        simp only [decode] at hd
        unfold decodeFrame at hd
        repeat' split at hd
        all_goals cases hd <;> (cases h; exact takeFrame_effect s _)
    | tick =>
      cases h
      rcases tick_cases (consumeEvent s) with ⟨_, e⟩ | ⟨hp, _⟩ | ⟨hp, _⟩
      · rw [e]; exact .quiet
      · exact .tick (by rw [he]; rfl) hp
      · exact .tick (by rw [he]; rfl) hp
    | blockReset =>
      cases h
      rcases resetBlock_cases (consumeEvent s) with ⟨ha, _⟩ | ⟨_, e⟩
      · exact .blockReset (by rw [he]; rfl) ha
      · rw [e]; exact .refuse _

end Sys2Proof.Machine
end

