-- ==== Sys2Proof/Tests/Slice0.lean ====
section
/-! SUPPORT. The model's own tests. Expected values come from spec/95_test_vectors.md (the vector is named
in each comment) or are written out by hand from the rule named; after them, one witness for the
hypotheses of every obligation that has any. -/

namespace Sys2Proof.Tests

open Sys2Proof.Machine
open Host (Outcome)

/-! ### Helpers -/

/-- `n` zero bytes. -/
def zeros (n : Nat) : ByteString := List.replicate n 0

/-- What a step or a meaning returns to the host. -/
def answer (o : Outcome State Fault Refusal) : Option Response :=
  match o with
  | .next s => s.response
  | .fault _ => none
  | .refused _ => none

/-- The next state of an outcome, if it has one. -/
def nextOf (o : Outcome State Fault Refusal) : Option State :=
  match o with
  | .next s => some s
  | .fault _ => none
  | .refused _ => none

/-- ASSIGN writes nothing but its answer (R123). -/
theorem of_answer {values : FieldValues} {s : State} {r : Result}
    (h : answer (exec (.assign values) s) = some (.result r)) :
    exec (.assign values) s = .next { s with response := some (.result r) } := by
  simp only [exec, execAssign] at h ⊢
  split at h
  · simp [answer, refuse] at h
  · split at h
    · split at h <;> simp_all [answer, reply]
    · simp [answer, refuse] at h

/-- The reset state, FIX under Clamp, with CHECK's verdict written out (`test_s0_is_reset`). -/
def s0 : State := { State.reset with catStatus := .valid }

/-- FIX under Strict. -/
def strict : State :=
  { s0 with params := { Config.defaultParams with modeInput := some .strict }, mode := .strict }

/-- V-K2: FIX without FX_LOW, its last field. -/
def noLow : List FieldSpec := Config.fixCatalog.dropLast

/-- A report with these lists. -/
def reported (badWidth outOfRange : List FieldName) (gaps overlaps : List Nat)
    (dupNames : List FieldName) : CatStatus :=
  .invalid { badWidth := badWidth, outOfRange := outOfRange, gaps := gaps, overlaps := overlaps,
             dupNames := dupNames }

/-- A block halted by V-K2's catalog. -/
def haltedState : State :=
  { s0 with params := { Config.defaultParams with catalog := noLow },
            catStatus := reported [] [] [0, 1, 2, 3] [] [] }

/-- A framer in the wait for `op`. -/
def waiting (op : POp) (lineBuf rx : ByteString) (elapsed timeout : Nat) : State :=
  { s0 with pState := .awaitingResponse, pOp := op, lineBuf := lineBuf, rx := rx,
            elapsed := elapsed, timeoutT := timeout }

/-- The state with these events to come. -/
def sched (events : List Event) (s : State) : State := { s with events := events }

/-- The answer of ASSIGN, as bytes and warnings. -/
def packs (s : State) (values : FieldValues) (bytes : ByteString) (warnings : List FieldName) : Bool :=
  decide (answer (exec (.assign values) s) = some (.result ⟨0x00, .packed bytes warnings⟩))

/-- The nonzero fields DECODE answers. -/
def nonzero (s : State) (data : ByteString) : Option (List (FieldName × Nat)) :=
  match answer (exec (.decode data) s) with
  | some (.result ⟨_, .fields fields⟩) => some (fields.filter fun p => decide (p.2 ≠ 0))
  | _ => none

/-! ### WellFormed: each check refuses an ill-formed term -/

theorem test_wf_duplicate_key :
    Instr.wf (.assign [(ascii "A", .val 1), (ascii "A", .val 2)]) = false := by decide
theorem test_wf_decode_length :
    Instr.wf (.decode (zeros 15)) = false ∧ Instr.wf (.decode (zeros 17)) = false := by decide
theorem test_wf_transfer_length : Instr.wf (.transfer (zeros 17) 3) = false := by decide
theorem test_wf_frame_length : Instr.wf (.frameData (zeros 0)) = false := by decide
theorem test_wf_illegal_is_a_command :
    Instr.wf (.illegal 0x01) = false ∧ Instr.wf (.illegal 0x05) = false := by decide
theorem test_wf_line_without_its_token :
    Instr.wf (.tokenTransferComplete (ascii "TRANSFER_COMPLET")) = false ∧
    Instr.wf (.tokenResetComplete (ascii "reset_complete")) = false ∧
    Instr.wf (.tokenError (ascii "error")) = false := by decide
theorem test_wf_line_with_lf :
    Instr.wf (.tokenTransferComplete (ascii "TRANSFER_COMPLETE" ++ [0x0A])) = false ∧
    Instr.wf (.tokenResetComplete ([0x0A] ++ ascii "RESET_COMPLETE")) = false ∧
    Instr.wf (.tokenError (ascii "ERROR" ++ [0x0A])) = false := by decide
theorem test_wf_line_of_an_earlier_row :
    Instr.wf (.tokenError (ascii "ERROR TRANSFER_COMPLETE")) = false ∧
    Instr.wf (.tokenError (ascii "ERROR RESET_COMPLETE")) = false ∧
    Instr.wf (.tokenResetComplete (ascii "RESET_COMPLETE TRANSFER_COMPLETE")) = false := by decide
theorem test_wf_accepts :
    [Instr.check, .assign [(ascii "A", .val 1), (ascii "B", .malformed)], .decode (zeros 16),
     .transfer (zeros 16) 0, .reset 5, .illegal 0x00, .illegal 0x06, .illegal 0xFF,
     .frameData (zeros 16), .frameReset, .tokenTransferComplete (ascii "ok TRANSFER_COMPLETE"),
     .tokenResetComplete (ascii "RESET_COMPLETE"), .tokenError (ascii "ERROR: bad frame")].all
      Instr.wf = true := by decide

/-! ### Decoding: words written out from the encodings of R82, R83, R88, R89, R93 -/

theorem test_decode_host_words :
    decodeTableWord 8 0x01 = some .check ∧
    decodeTableWord 8 0x02 = some (.assign []) ∧
    decodeTableWord 8 0x03 = some (.decode (zeros 16)) ∧
    decodeTableWord 8 0x04 = some (.transfer (zeros 16) 0) ∧
    decodeTableWord 8 0x05 = some (.reset 0) ∧
    decodeTableWord 8 0x00 = some (.illegal 0x00) ∧
    decodeTableWord 8 0x06 = some (.illegal 0x06) ∧
    decodeTableWord 8 0xFF = some (.illegal 0xFF) := by decide

theorem test_decode_records :
    decode (.host { op := 0x02, values := [(ascii "A", .val 7)] }) = .ok (.assign [(ascii "A", .val 7)]) ∧
    decode (.host { op := 0x04, data := zeros 16, timeout := 9 }) = .ok (.transfer (zeros 16) 9) ∧
    decode (.host { op := 0x03, data := zeros 15 }) = .error .badOperandLength ∧
    decode (.host { op := 0x04, data := zeros 17 }) = .error .badOperandLength := by decide

/-- V-F1 to V-F4, read back from the stream, with bytes after the frame. -/
theorem test_decode_frames :
    decodeTableWord 8 0x52 = some .frameReset ∧
    decode (.wire ([0x3C] ++ zeros 16 ++ [0x3E])) = .ok (.frameData (zeros 16)) ∧
    decode (.wire ([0x3C, 0x3E, 0x3C, 0x52, 0x0A] ++ zeros 12 ++ [0x3E, 0x52])) =
      .ok (.frameData ([0x3E, 0x3C, 0x52, 0x0A] ++ zeros 12)) ∧
    decode (.wire [0x52, 0x3C]) = .ok .frameReset := by decide

theorem test_decode_rejects_by_name :
    decode (.wire []) = .error .emptyStream ∧
    decode (.wire [0x3E]) = .error .notAFrame ∧
    decode (.wire ([0x3C] ++ zeros 16)) = .error .incompleteFrame ∧
    decode (.wire ([0x3C] ++ zeros 16 ++ [0x3C])) = .error .badEndDelimiter ∧
    decode (.line (ascii "hello")) = .error .nonDecisiveLine := by decide

theorem test_decode_lines :
    decodeTableWord 136 0x4554454C504D4F435F524546534E415254 = 
      some (.tokenTransferComplete [0x54, 0x52, 0x41, 0x4E, 0x53, 0x46, 0x45, 0x52, 0x5F,
        0x43, 0x4F, 0x4D, 0x50, 0x4C, 0x45, 0x54, 0x45]) ∧
    decodeTableWord 112 0x4554454C504D4F435F5445534552 =
      some (.tokenResetComplete [0x52, 0x45, 0x53, 0x45, 0x54, 0x5F,
        0x43, 0x4F, 0x4D, 0x50, 0x4C, 0x45, 0x54, 0x45]) ∧
    decodeTableWord 40 0x524F525245 = some (.tokenError [0x45, 0x52, 0x52, 0x4F, 0x52]) := by decide

/-- The next step after reset runs a placed word as its row. -/
theorem test_placed_words_run :
    step (s0.withFetchWord 8 0x01) = exec .check s0 ∧
    step (s0.withFetchWord 8 0x06) = exec (.illegal 0x06) s0 ∧
    step (s0.withFetchWord 8 0x52) = exec .frameReset { s0 with tx := [0x52] } ∧
    step (s0.withFetchWord 40 0x524F525245) =
      exec (.tokenError (ascii "ERROR")) (waiting .none (ascii "ERROR") [] 0 0) := ⟨rfl, rfl, rfl, rfl⟩

/-! ### CHECK (95_test_vectors section 2.1) -/

/-- V-K1: FIX is valid, and it is an admissible parameter. -/
theorem test_check_fix :
    checkCatalog Config.fixCatalog = .valid ∧ admissible Config.fixCatalog = true ∧
    Config.fixCatalog.length = 30 ∧ (Config.fixCatalog.map FieldSpec.width).sum = 128 := by
  decide +kernel

/-- V-K2 to V-K8. -/
theorem test_check_vectors :
    checkCatalog noLow = reported [] [] [0, 1, 2, 3] [] [] ∧
    checkCatalog (noLow ++ [⟨ascii "FX_LOW", 3, 5⟩]) = reported [] [ascii "FX_LOW"] [0, 1, 2, 3] [] [] ∧
    checkCatalog (Config.fixCatalog ++ [⟨ascii "DUP", 0, 1⟩]) = reported [] [] [] [0] [] ∧
    checkCatalog (Config.fixCatalog ++ [⟨ascii "ZW", 5, 0⟩]) = reported [ascii "ZW"] [] [] [] [] ∧
    checkCatalog (noLow ++ [⟨ascii "_TMUX_SEL_", 3, 4⟩]) =
      reported [] [] [] [] [ascii "_TMUX_SEL_"] ∧
    checkCatalog [] = reported [] [] (List.range 128) [] [] ∧
    checkCatalog [⟨ascii "BIG", 127, 128⟩] = .valid ∧
    admissible [⟨ascii "BIG", 127, 128⟩] = false ∧ admissible [] = false ∧
    admissible noLow = true := by decide +kernel

/-- The states above are the block's after reset: `boot` stores CHECK's verdict (R230). -/
theorem test_s0_is_reset : s0 = State.reset := by
  have h : State.reset.catStatus = .valid := test_check_fix.1
  rw [s0, ← h]

theorem test_halted_is_reset :
    haltedState = State.boot { Config.defaultParams with catalog := noLow } [] [] := by
  have h : checkCatalog noLow = reported [] [] [0, 1, 2, 3] [] [] := test_check_vectors.1
  have ha : admissible noLow = true := test_check_vectors.2.2.2.2.2.2.2.2.2
  simp [haltedState, s0, State.reset, State.boot, h, ha]
  decide +kernel

/-- R33: `lo` is an integer, −1 for the field of V-K3, and `max` is 15 for a field of 4 bits. -/
theorem test_lo_is_an_integer :
    (⟨ascii "FX_LOW", 3, 5⟩ : FieldSpec).lo = -1 ∧ (⟨ascii "FX_LOW", 3, 4⟩ : FieldSpec).lo = 0 ∧
    (⟨ascii "_TEST_ADD_", 11, 4⟩ : FieldSpec).lo = 8 ∧
    (⟨ascii "_TEST_ADD_", 11, 4⟩ : FieldSpec).max = 15 := by decide

/-! ### ASSIGN (section 2.2) -/

/-- Clamp: V-A2, V-A3, V-A6, V-A8, V-A11, V-A13, V-A18, V-A22 to V-A28, V-A31. -/
theorem test_assign_clamp :
    packs s0 [(ascii "_CSH_EN_8_", .val 1)] ([0x80] ++ zeros 15) [] = true ∧
    packs s0 [(ascii "_TEST_ADD_", .val 5), (ascii "_TMUX_SEL_", .val 10)]
      (zeros 14 ++ [0x05, 0xA0]) [] = true ∧
    packs s0 [(ascii "_TMUX_SEL_", .val 26)] (zeros 15 ++ [0xA0]) [] = true ∧
    packs s0 [(ascii "_TEST_ADD_", .val 16)] (zeros 16) [] = true ∧
    packs s0 [(ascii "_CSH_EN_8_", .malformed)] (zeros 16) [ascii "_CSH_EN_8_"] = true ∧
    packs s0 [(ascii "_csh_en_8_", .val 1)] (zeros 16) [] = true ∧
    packs s0 [(ascii "FX_W7", .val 85)] ([0x00, 0xAA] ++ zeros 14) [] = true ∧
    packs s0 [(ascii "FX_W7", .val 200)] ([0x00, 0x90] ++ zeros 14) [] = true ∧
    packs s0 [(ascii "FX_W7", .val (2 ^ 200 + 5))] ([0x00, 0x0A] ++ zeros 14) [] = true ∧
    packs s0 [(ascii "FX_W2", .val 3)] ([0x00, 0x01, 0x80] ++ zeros 13) [] = true ∧
    packs s0 [(ascii "FX_W3", .val 5)] ([0x00, 0x00, 0x50] ++ zeros 13) [] = true ∧
    packs s0 [(ascii "_PI_DELAY_CTRL3_", .val 63)] ([0x00, 0x00, 0x0F, 0xC0] ++ zeros 12) [] = true ∧
    packs s0 [(ascii "PAD_15", .val 63)] (zeros 13 ++ [0x03, 0xF0, 0x00]) [] = true ∧
    packs s0 [(ascii "PAD_7", .val 42)] (zeros 7 ++ [0x02, 0xA0] ++ zeros 7) [] = true ∧
    packs s0 [(ascii "FX_W7", .malformed), (ascii "FX_LOW", .malformed), (ascii "_TEST_ADD_", .val 3)]
      (zeros 14 ++ [0x03, 0x00]) [ascii "FX_W7", ascii "FX_LOW"] = true := by decide +kernel

/-- Strict and the refusals: V-A5, V-A9, V-A12, V-A14, V-A15, V-A32, V-A33. -/
theorem test_assign_strict :
    packs strict [(ascii "_TMUX_SEL_", .val 15)] (zeros 15 ++ [0xF0]) [] = true ∧
    answer (exec (.assign [(ascii "_TEST_ADD_", .val 16)]) strict) =
      some (.result ⟨0x01, .outOfRange (ascii "_TEST_ADD_") 16 15⟩) ∧
    answer (exec (.assign [(ascii "_CSH_EN_8_", .malformed)]) strict) =
      some (.result ⟨0x02, .malformedInput (ascii "_CSH_EN_8_")⟩) ∧
    answer (exec (.assign [(ascii "_CSH_EN_8_", .val 1), (ascii "_TEST_ADD_", .val 99)]) strict) =
      some (.result ⟨0x01, .outOfRange (ascii "_TEST_ADD_") 99 15⟩) ∧
    answer (exec (.assign [(ascii "_TEST_ADD_", .val 16), (ascii "_CSH_EN_8_", .val 2)]) strict) =
      some (.result ⟨0x01, .outOfRange (ascii "_CSH_EN_8_") 2 1⟩) ∧
    answer (exec (.assign [(ascii "_TEST_ADD_", .val 1), (ascii "_TEST_ADD_", .val 1)]) s0) =
      some (.refused .duplicateKey) ∧
    answer (exec (.assign []) haltedState) = some (.refused .halted) := by decide +kernel

/-! ### DECODE (section 2.3) -/

/-- V-D2, V-D3, V-D4, V-D7. -/
theorem test_decode_known_entries :
    nonzero s0 ([0x80] ++ zeros 15) = some [(ascii "_CSH_EN_8_", 1)] ∧
    nonzero s0 (zeros 14 ++ [0x05, 0xA0]) = some [(ascii "_TEST_ADD_", 5), (ascii "_TMUX_SEL_", 10)] ∧
    nonzero s0 (zeros 15 ++ [0x5A]) = some [(ascii "_TMUX_SEL_", 5), (ascii "FX_LOW", 10)] ∧
    nonzero s0 ([0x00, 0x00, 0x0F, 0xC0] ++ zeros 12) = some [(ascii "_PI_DELAY_CTRL3_", 63)] := by
  decide +kernel

/-- V-D6. -/
theorem test_decode_all_fields :
    nonzero s0 [0x01, 0x23, 0x45, 0x67, 0x89, 0xAB, 0xCD, 0xEF,
                0xFE, 0xDC, 0xBA, 0x98, 0x76, 0x54, 0x32, 0x10] =
      some ([(ascii "_CSH_EN_1_", 1), (ascii "FX_W7", 17), (ascii "FX_W2", 2), (ascii "FX_W3", 4),
             (ascii "_PI_DELAY_CTRL3_", 21), (ascii "PAD_1", 39), (ascii "PAD_2", 34),
             (ascii "PAD_3", 26), (ascii "PAD_4", 47), (ascii "PAD_5", 13)] ++
            [(ascii "PAD_6", 59), (ascii "PAD_7", 63), (ascii "PAD_8", 59), (ascii "PAD_9", 28),
             (ascii "PAD_10", 46), (ascii "PAD_11", 41), (ascii "PAD_12", 33), (ascii "PAD_13", 54),
             (ascii "PAD_14", 21), (ascii "PAD_15", 3), (ascii "_TEST_ADD_", 2),
             (ascii "_TMUX_SEL_", 1)]) := by decide +kernel

/-! ### TRANSFER, RESET and the reserved opcodes (sections 2.4, 2.5) -/

/-- V-F4 and R163: the frame goes out unescaped, what stood in both streams is discarded. -/
theorem test_transfer_starts :
    (nextOf (exec (.transfer ([0x3E, 0x3C, 0x52, 0x0A] ++ zeros 12) 7)
        { s0 with tx := [1], rx := [2, 3], lineBuf := [4] })).map
      (fun s => (s.tx, s.rx, s.lineBuf)) =
      some ([0x3C, 0x3E, 0x3C, 0x52, 0x0A] ++ zeros 12 ++ [0x3E], [], []) ∧
    (nextOf (exec (.transfer (zeros 16) 7) s0)).map (fun s => (s.pState, s.pOp, s.timeoutT)) =
      some (.sent, .transfer, 7) := by decide +kernel

/-- V-P14, V-P17. -/
theorem test_transfer_refused :
    answer (exec (.transfer (zeros 16) 5) (waiting .transfer [] [] 0 5)) = some (.refused .busy) ∧
    (nextOf (exec (.transfer (zeros 16) 5) haltedState)).map (fun s => (s.tx, s.refused, s.response)) =
      some ([], true, some (.refused .halted)) := by decide +kernel

/-- V-F3, started after a timeout (program 3, step 3). -/
theorem test_reset_starts :
    (nextOf (exec (.reset 2) { s0 with pState := .timedOut, pOp := .transfer, elapsed := 2 })).map
      (fun s => (s.tx, s.pState, s.pOp, s.timeoutT)) = some ([0x52], .sent, .reset, 2) := by
  decide +kernel

theorem test_illegal_sets_refused :
    (nextOf (exec (.illegal 0x06) s0)).map (fun s => (s.refused, s.response, s.pState)) =
      some (true, some (.refused .illegalCommand), .idle) := by decide +kernel

/-! ### The frames on the wire (R64, R91) -/

theorem test_frame_data_taken :
    (nextOf (exec (.frameData (zeros 16)) { s0 with tx := [0x3C] ++ zeros 16 ++ [0x3E] })).map State.tx =
      some [] := by decide +kernel

theorem test_frame_reset_taken :
    (nextOf (exec .frameReset { s0 with tx := [0x52, 0x07] })).map State.tx = some [0x07] := by
  decide +kernel

/-! ### Lines and ticks (section 2.5) -/

/-- V-P6 and V-P12: the substring with a CR, and at timeout 0. -/
theorem test_line_transfer_complete :
    (nextOf (step (waiting .transfer (ascii "ok TRANSFER_COMPLETE at 12ms" ++ [0x0D]) [0x0A, 0x41] 0 0))).map
      (fun s => (s.pState, s.rx, s.lineBuf, s.response)) =
      some (.completedSuccess, [0x41], [], some (.result ⟨0x00, .empty⟩)) := by decide +kernel

/-- V-P5: not a decision for RESET. -/
theorem test_line_of_the_other_operation :
    (nextOf (exec (.tokenTransferComplete (ascii "TRANSFER_COMPLETE"))
        (waiting .reset (ascii "TRANSFER_COMPLETE") [] 0 2))).map
      (fun s => (s.pState, s.lineBuf, s.response)) = some (.awaitingResponse, [], none) := by
  decide +kernel

/-- V-P4. -/
theorem test_line_reset_complete :
    (nextOf (step (waiting .reset (ascii "RESET_COMPLETE") [0x0A] 1 5))).map
      (fun s => (s.pState, s.elapsed)) = some (.completedSuccess, 1) := by decide +kernel

/-- V-P3, and V-P16: lower case decides nothing. -/
theorem test_line_error :
    answer (step (waiting .transfer (ascii "ERROR: bad frame") [0x0A] 0 5)) =
      some (.result ⟨0x04, .message [0x45, 0x52, 0x52, 0x4F, 0x52, 0x3A, 0x20, 0x62, 0x61, 0x64,
                                     0x20, 0x66, 0x72, 0x61, 0x6D, 0x65]⟩) ∧
    (nextOf (step (waiting .reset (ascii "error") [0x0A] 0 5))).map State.pState =
      some .awaitingResponse := by decide +kernel

/-- V-P9 under both priorities. -/
theorem test_line_with_both_tokens :
    (nextOf (step (waiting .transfer (ascii "ERROR TRANSFER_COMPLETE") [0x0A] 0 5))).map State.pState =
      some .completedSuccess ∧
    (nextOf (step { waiting .transfer (ascii "ERROR TRANSFER_COMPLETE") [0x0A] 0 5 with
        params := { Config.defaultParams with tokenPriority := .errorFirst } })).map State.pState =
      some (.completedError (ascii "ERROR TRANSFER_COMPLETE")) := by decide +kernel

/-- V-P2 (the 4th and the 5th tick), V-P8 and V-P11. -/
theorem test_ticks :
    (nextOf (step (sched [.tick] (waiting .transfer [] [] 3 5)))).map (fun s => (s.pState, s.elapsed)) =
      some (.awaitingResponse, 4) ∧
    (nextOf (step (sched [.tick] (waiting .transfer [] [] 4 5)))).map
      (fun s => (s.pState, s.elapsed, s.response)) =
      some (.timedOut, 5, some (.result ⟨0x05, .empty⟩)) ∧
    (nextOf (step (sched [.tick] (waiting .transfer (ascii "TRANSFER_COMPLETE") [] 0 1)))).map
      (fun s => (s.pState, s.lineBuf)) = some (.timedOut, ascii "TRANSFER_COMPLETE") ∧
    (nextOf (step (sched [.tick] (waiting .transfer [] [] 0 0)))).map (fun s => (s.pState, s.elapsed)) =
      some (.timedOut, 1) := by decide +kernel

/-- R172: a full buffer refuses the byte; the default is unbounded. -/
theorem test_line_overflow :
    answer (step { waiting .transfer (zeros 2) [0x41] 0 5 with
        params := { Config.defaultParams with lineBufCap := some 2 } }) =
      some (.refused .lineOverflow) ∧
    (nextOf (step (waiting .transfer (zeros 2) [0x41] 0 5))).map State.lineBuf =
      some (zeros 2 ++ [0x41]) := by decide +kernel

/-- R230: the reset of a halted block finds the same report, and drops a running operation; TX and RX
stay. -/
theorem test_block_reset :
    (nextOf (step (sched [.blockReset] { waiting .transfer [1] [2] 1 5 with tx := [3] }))).map
      (fun s => (s.pState, s.pOp, s.elapsed, s.tx, s.rx)) = some (.idle, POp.none, 0, [3], [2]) ∧
    (nextOf (step (sched [.blockReset] haltedState))).map State.catStatus =
      some (reported [] [] [0, 1, 2, 3] [] []) ∧
    (State.boot { Config.defaultParams with catalog := [] } [] []).response =
      some (.refused .badCatalogParameter) := by decide +kernel

/-! ### The host's duties (R86, R96, R97, R120) -/

theorem test_normalise :
    normalise (.boolean true) = .val 1 ∧ normalise (.integer 12) = .val 12 ∧
    normalise (.integer (-1)) = .malformed ∧ normalise (.text (ascii "0042")) = .val 42 ∧
    normalise (.text (ascii "+5")) = .malformed ∧ normalise (.text []) = .malformed := by decide +kernel

theorem test_ticks_of : ticksOf 10000 0 = 0 ∧ ticksOf 10000 1 = 1 ∧ ticksOf 10000 10000 = 1 ∧
    ticksOf 10000 10001 = 2 := by decide +kernel

theorem test_command_text :
    commandText (.reset 2) = some (ascii "RESET timeout=2") ∧
    commandText (.transfer ([0x81] ++ zeros 13 ++ [0x05, 0xA0]) 3) = some
      (ascii "TRANSFER 81 00 00 00 00 00 00 00 00 00 00 00 00 00 05 A0 , timeout=3") := by decide +kernel

/-! ### Witnesses: the hypotheses of each obligation are met, each clause at a boundary of its range -/

theorem fix_cover : ExactCover Config.fixCatalog := (checkCatalog_valid_iff _).mp test_check_fix.1

theorem s0_good : CatalogGood s0 := ⟨rfl, fix_cover⟩

theorem strict_good : CatalogGood strict := ⟨rfl, fix_cover⟩

theorem s0_inv : StateInv s0 where
  catalog := test_check_fix.1.symm
  mode := rfl
  halted := fun _ => rfl
  operation := ⟨fun _ => rfl, fun _ => rfl⟩
  line := by decide
  capacity := fun _ h => nomatch h
  unfinished := fun _ _ => rfl
  waiting := fun h => nomatch h
  deadline := fun h => nomatch h
  message := fun _ h => nomatch h

theorem halted_inv : StateInv haltedState where
  catalog := test_check_vectors.1.symm
  mode := rfl
  halted := fun _ => rfl
  operation := ⟨fun _ => rfl, fun _ => rfl⟩
  line := by decide
  capacity := fun _ h => nomatch h
  unfinished := fun _ _ => rfl
  waiting := fun h => nomatch h
  deadline := fun h => nomatch h
  message := fun _ h => nomatch h

/-- A refused command, scheduled. -/
def withIllegal (s : State) : State := sched [.command { op := 0x06 }] s

/-- What one step reaches. -/
theorem reaches_one {s t : State} (h : step s = .next t) : Reaches s t := Relation.ReflTransGen.single h

theorem witness_DecodeOfEncodeIsTheInstruction :
    Instr.wf (.transfer (zeros 16) 0) = true ∧
    Instr.wf (.tokenError (ascii "x ERROR" ++ [0x0D])) = true := by decide

theorem witness_FramesAreToldFromTheirFirstByte :
    (List.replicate 16 (0x3E : Byte)).length = 16 ∧
    decode (.wire ([0x3C] ++ List.replicate 16 0x3E ++ [0x3E])) =
      .ok (.frameData (List.replicate 16 0x3E)) := by decide

theorem witness_OpBytesSelectTheirCommands :
    (zeros 16).length = 16 ∧ (zeros 15).length ≠ 16 ∧ (0x06 : Nat) ≤ (0x06 : Byte).toNat ∧
    (0x06 : Nat) ≤ (0xFF : Byte).toNat ∧ ¬ (0x06 : Nat) ≤ (0x05 : Byte).toNat := by decide

theorem witness_ReservedOpcodeIsRefused :
    ∀ op ∈ [(0x00 : Byte), 0x06, 0xFF],
      (sched [.command { op := op }] s0).events = [.command { op := op }] ∧
      (op = 0x00 ∨ 0x06 ≤ op.toNat) := by decide

theorem witness_OtherLengthIsRefusedAtTheInterface :
    ∀ c ∈ [({ op := 0x03, data := zeros 15 } : Command), { op := 0x03, data := zeros 17 },
           { op := 0x04, data := zeros 15 }, { op := 0x04, data := zeros 17 }, { op := 0x04 }],
      (sched [.command c] s0).events = [.command c] ∧
      (c.op = 0x03 ∨ c.op = 0x04) ∧ c.data.length ≠ 16 := by decide

theorem witness_StepRunsTheDecodedInstruction :
    (sched [.command { op := 0x05, timeout := 2 }] s0).events = [.command { op := 0x05, timeout := 2 }] ∧
    decode (.host { op := 0x05, timeout := 2 }) = .ok (.reset 2) ∧
    (sched [.peerFrame] { s0 with tx := [0x52] }).events = [.peerFrame] ∧
    decode (.wire (sched [.peerFrame] { s0 with tx := [0x52] }).tx) = .ok .frameReset ∧
    (sched [.framer] (waiting .transfer (ascii "ERROR") [0x0A] 0 5)).events = [.framer] ∧
    (sched [.framer] (waiting .transfer (ascii "ERROR") [0x0A] 0 5)).rx = 0x0A :: [] ∧
    decode (.line (sched [.framer] (waiting .transfer (ascii "ERROR") [0x0A] 0 5)).lineBuf) =
      .ok (.tokenError (ascii "ERROR")) := by decide

theorem witness_EmptyScheduleLetsTheFramerGoOn :
    (waiting .transfer [] [0x41] 0 5).events = [] ∧
    step (waiting .transfer [] [0x41] 0 5) = .next (waiting .transfer [0x41] [] 0 5) := ⟨rfl, rfl⟩

theorem witness_CheckAnswersTheViolationReport :
    ExactCover s0.params.catalog ∧ ¬ ExactCover haltedState.params.catalog := by
  refine ⟨fix_cover, fun h => ?_⟩
  have := ((checkCatalog_valid_iff _).mpr h).symm.trans test_check_vectors.1
  cases this

theorem witness_CheckIsConstantOverARun :
    StateInv (withIllegal s0) ∧ ∃ t, Reaches (withIllegal s0) t ∧ t ≠ withIllegal s0 :=
  ⟨⟨s0_inv.1, s0_inv.2, s0_inv.3, s0_inv.4, s0_inv.5, s0_inv.6, s0_inv.7, s0_inv.8, s0_inv.9,
    s0_inv.10⟩, _, reaches_one rfl, fun h => Bool.noConfusion (congrArg State.refused h)⟩

theorem witness_WidthsOfAValidCatalogSumTo128 :
    checkCatalog Config.fixCatalog = .valid ∧ ∀ f ∈ Config.fixCatalog, f.width ≤ 7 :=
  ⟨test_check_fix.1, by decide⟩

theorem witness_EveryPositionHasOneOwner :
    checkCatalog Config.fixCatalog = .valid ∧ 0 < 128 ∧ 127 < 128 := ⟨test_check_fix.1, by decide⟩

/-- The value 16 is one more than the maximum of `_TEST_ADD_`; a malformed input stands beside it. -/
theorem witness_AssignUnderClampPacksTheLowBits :
    CatalogGood s0 ∧ s0.mode = .clamp ∧
    (([(ascii "_TEST_ADD_", .val 16), (ascii "FX_LOW", .malformed)] : FieldValues).map
      Prod.fst).Nodup ∧
    (⟨ascii "_TEST_ADD_", 11, 4⟩ : FieldSpec) ∈ s0.params.catalog ∧ 3 < 4 ∧
    InputIs [(ascii "_TEST_ADD_", .val 16), (ascii "FX_LOW", .malformed)]
      ⟨ascii "_TEST_ADD_", 11, 4⟩ (.val 16) ∧
    (⟨ascii "FX_LOW", 3, 4⟩ : FieldSpec) ∈ s0.params.catalog ∧
    InputIs [(ascii "_TEST_ADD_", .val 16), (ascii "FX_LOW", .malformed)]
      ⟨ascii "FX_LOW", 3, 4⟩ .malformed :=
  ⟨s0_good, rfl, by decide, by decide, by decide, .inl (by decide), by decide, .inl (by decide)⟩

/-- The value 15 is the maximum of `_TEST_ADD_`; every other field has no pair. -/
theorem witness_AssignUnderStrictPacksFittingInputs :
    CatalogGood strict ∧ strict.mode = .strict ∧
    (([(ascii "_TEST_ADD_", .val 15)] : FieldValues).map Prod.fst).Nodup ∧
    ∀ f ∈ strict.params.catalog,
      ∃ n, InputIs [(ascii "_TEST_ADD_", .val 15)] f (.val n) ∧ n ≤ 2 ^ f.width - 1 := by
  refine ⟨strict_good, rfl, by decide, fun f hf => ?_⟩
  by_cases h : f.name = ascii "_TEST_ADD_"
  · have hw : ∀ g ∈ Config.fixCatalog, g.name = ascii "_TEST_ADD_" → 15 ≤ 2 ^ g.width - 1 := by decide
    exact ⟨15, .inl (by rw [h]; decide), hw f hf h⟩
  · exact ⟨0, .inr ⟨by simpa using h, rfl⟩, Nat.zero_le _⟩

/-- The first field fails by one; and by a malformed input. -/
theorem witness_AssignUnderStrictReportsTheFirstFailingField :
    strict.catStatus = .valid ∧ strict.mode = .strict ∧
    (([(ascii "_CSH_EN_8_", .val 2)] : FieldValues).map Prod.fst).Nodup ∧
    strict.params.catalog = [] ++ ⟨ascii "_CSH_EN_8_", 127, 1⟩ :: Config.fixCatalog.drop 1 ∧
    (∀ g ∈ ([] : List FieldSpec), ∃ n,
      InputIs [(ascii "_CSH_EN_8_", .val 2)] g (.val n) ∧ n ≤ 2 ^ g.width - 1) ∧
    InputIs [(ascii "_CSH_EN_8_", .val 2)] ⟨ascii "_CSH_EN_8_", 127, 1⟩ (.val 2) ∧ 2 ^ 1 - 1 < 2 ∧
    InputIs [(ascii "_CSH_EN_8_", .malformed)] ⟨ascii "_CSH_EN_8_", 127, 1⟩ .malformed :=
  ⟨rfl, rfl, by decide, by decide +kernel, (fun _ h => nomatch h), .inl (by decide), by decide, .inl (by decide)⟩

/-- The last field fails, the fields before it have no pair. -/
theorem witness_AssignUnderStrictReportsTheFirstFailingField_last :
    strict.params.catalog = noLow ++ ⟨ascii "FX_LOW", 3, 4⟩ :: [] ∧
    (∀ g ∈ noLow, ∃ n, InputIs [(ascii "FX_LOW", .val 16)] g (.val n) ∧ n ≤ 2 ^ g.width - 1) ∧
    InputIs [(ascii "FX_LOW", .val 16)] ⟨ascii "FX_LOW", 3, 4⟩ (.val 16) ∧ 2 ^ 4 - 1 < 16 := by
  refine ⟨rfl, fun g hg => ⟨0, .inr ⟨?_, rfl⟩, Nat.zero_le _⟩, .inl (by decide), by decide⟩
  have h : ∀ g ∈ noLow, g.name ∉ [ascii "FX_LOW"] := by decide
  exact h g hg

theorem witness_EmptyMappingGivesZeroBytes : s0.catStatus = .valid ∧ strict.catStatus = .valid :=
  ⟨rfl, rfl⟩

theorem witness_OverflowByOneWrapsOrFails :
    CatalogGood s0 ∧ s0.mode = .clamp ∧ CatalogGood strict ∧ strict.mode = .strict ∧
    (⟨ascii "FX_W7", 119, 7⟩ : FieldSpec) ∈ s0.params.catalog ∧
    (⟨ascii "_CSH_EN_8_", 127, 1⟩ : FieldSpec) ∈ strict.params.catalog :=
  ⟨s0_good, rfl, strict_good, rfl, by decide, by decide⟩

theorem witness_PairOrderHasNoEffect :
    ([(ascii "_TMUX_SEL_", .val 10), (ascii "_TEST_ADD_", .val 5)] : FieldValues).Perm
      [(ascii "_TEST_ADD_", .val 5), (ascii "_TMUX_SEL_", .val 10)] := List.Perm.swap _ _ _

/-- FIX with its first two fields moved to the end, and a mapping with two warnings. -/
theorem witness_CatalogOrderDoesNotAffectTheBytes :
    CatalogGood s0 ∧
    s0.params.catalog.Perm ((Config.fixCatalog.drop 2) ++ (Config.fixCatalog.take 2)) ∧
    exec (.assign [(ascii "_CSH_EN_8_", .malformed), (ascii "_CSH_EN_7_", .malformed),
        (ascii "_TEST_ADD_", .val 3)]) s0 =
      .next { s0 with response := some (.result ⟨0x00, .packed (zeros 14 ++ [0x03, 0x00])
        [ascii "_CSH_EN_8_", ascii "_CSH_EN_7_"]⟩) } := by
  refine ⟨s0_good, ?_, of_answer (by decide +kernel)⟩
  have h : Config.fixCatalog.Perm (Config.fixCatalog.drop 2 ++ Config.fixCatalog.take 2) := by
    conv_lhs => rw [← List.take_append_drop 2 Config.fixCatalog]
    exact List.perm_append_comm
  exact h

theorem witness_FieldsAreIndependent :
    CatalogGood s0 ∧ (([] : FieldValues).map Prod.fst).Nodup ∧
    (∀ f ∈ s0.params.catalog, ∃ warn, resolve f (inputFor [] f) s0.mode = .ok (0, warn)) ∧
    (⟨ascii "FX_LOW", 3, 4⟩ : FieldSpec) ∈ s0.params.catalog ∧
    (∀ g ∈ s0.params.catalog, g ≠ ⟨ascii "FX_LOW", 3, 4⟩ →
      inputFor [] g = inputFor [(ascii "FX_LOW", .val 15)] g) ∧
    exec (.assign []) s0 =
      .next { s0 with response := some (.result ⟨0x00, .packed (zeros 16) []⟩) } ∧
    exec (.assign [(ascii "FX_LOW", .val 15)]) s0 =
      .next { s0 with response := some (.result ⟨0x00, .packed (zeros 15 ++ [0x0F]) []⟩) } ∧
    ¬ ((⟨ascii "FX_LOW", 3, 4⟩ : FieldSpec).lo ≤ 4 ∧ 4 ≤ 3) := by
  refine ⟨s0_good, by decide, fun f _ => ⟨false, ?_⟩, by decide, by decide,
    of_answer (by decide +kernel), of_answer (by decide +kernel), by decide⟩
  simp [inputFor, resolve, show s0.mode = .clamp from rfl]

theorem witness_ChecksAreTakenInOrder :
    haltedState.catStatus ≠ .valid ∧ s0.catStatus = .valid ∧
    ¬ (([(ascii "A", .val 1), (ascii "A", .val 1)] : FieldValues).map Prod.fst).Nodup ∧
    (zeros 16).length = 16 ∧ (waiting .reset [] [] 0 1).catStatus = .valid ∧
    (waiting .reset [] [] 0 1).pState = .awaitingResponse ∧
    ({ s0 with pState := .sent } : State).pState = .sent := by
  exact ⟨(fun h => nomatch h), rfl, by decide, by decide, rfl, rfl, rfl⟩

theorem witness_DecodeReadsEveryField :
    s0.catStatus = .valid ∧ (List.replicate 16 (0xFF : Byte)).length = 16 ∧
    (⟨ascii "_CSH_EN_8_", 127, 1⟩ : FieldSpec) ∈ s0.params.catalog ∧ 127 ≤ 127 ∧ 1 ≤ 127 + 1 :=
  ⟨rfl, by decide, by decide, by decide, by decide⟩

theorem witness_PackThenUnpackGivesTheResolvedValues :
    CatalogGood s0 ∧ (([(ascii "FX_LOW", .val 15)] : FieldValues).map Prod.fst).Nodup ∧
    exec (.assign [(ascii "FX_LOW", .val 15)]) s0 =
      .next { s0 with response := some (.result ⟨0x00, .packed (zeros 15 ++ [0x0F]) []⟩) } ∧
    InputIs [(ascii "FX_LOW", .val 15)] ⟨ascii "FX_LOW", 3, 4⟩ (.val 15) ∧ 15 ≤ 2 ^ 4 - 1 :=
  ⟨s0_good, by decide, of_answer (by decide +kernel), .inl (by decide), by decide⟩

theorem witness_UnpackThenPackGivesTheSameBytes :
    CatalogGood s0 ∧ CatalogGood strict ∧ (zeros 16).length = 16 := ⟨s0_good, strict_good, by decide⟩

/-- The second state differs in all that the packer does not read. -/
theorem witness_PackerIsPure :
    s0.params = (waiting .reset [1] [2] 3 4).params ∧ s0.mode = (waiting .reset [1] [2] 3 4).mode ∧
    s0.catStatus = (waiting .reset [1] [2] 3 4).catStatus := ⟨rfl, rfl, rfl⟩

theorem witness_OperationStarts :
    (zeros 16).length = 16 ∧
    ∀ p ∈ [PState.idle, .completedSuccess, .completedError (ascii "ERROR"), .timedOut],
      ({ s0 with pState := p } : State).catStatus = .valid ∧
      ({ s0 with pState := p } : State).pState ≠ .sent ∧
      ({ s0 with pState := p } : State).pState ≠ .awaitingResponse := by decide

theorem witness_SecondOperationIsRefusedBusy :
    let s := sched [.command { op := 0x04, data := zeros 16, timeout := 5 }] (waiting .transfer [] [] 0 5)
    s.events = [.command { op := 0x04, data := zeros 16, timeout := 5 }] ∧ (zeros 16).length = 16 ∧
    s.catStatus = .valid ∧ s.pState = .awaitingResponse := ⟨rfl, by decide, rfl, rfl⟩

theorem witness_FrameRowsAreTakenFromTheFrontOfTx :
    ({ s0 with tx := [0x3C] ++ zeros 16 ++ [0x3E] ++ [0x52] } : State).tx =
      [0x3C] ++ zeros 16 ++ [0x3E] ++ [0x52] ∧
    ({ s0 with tx := [0x52] } : State).tx = [0x52] ++ [] ∧
    ¬ [0x3C] ++ zeros 16 ++ [0x3E] <+: s0.tx ∧ ¬ [0x52] <+: s0.tx := by decide

theorem witness_StepWritesOneWholeFrameOrNothing :
    ∃ t, step (sched [.command { op := 0x05, timeout := 1 }] s0) = .next t ∧ t.tx = [0x52] :=
  ⟨_, rfl, rfl⟩

theorem witness_PeerStepsMoveStreamBytesOnly :
    (sched [.peerTake ([3] : ByteString).length] { s0 with tx := [3] }).tx = [3] ++ [] ∧
    (sched [.peerSend [0x0A]] s0).events = [.peerSend [0x0A]] := by decide

theorem witness_SentEntersTheWait :
    (sched [.framer] { s0 with pState := .sent }).pState = .sent ∧
    (sched [.framer] { s0 with pState := .sent }).events = [.framer] := by decide

/-- Both clauses at the capacity 2, and the first one byte before it. -/
theorem witness_ByteJoinsTheLineOrOverflows :
    ∀ line ∈ [zeros 1, zeros 2],
      let s := sched [.framer] { waiting .transfer line [0x41] 0 5 with
        params := { Config.defaultParams with lineBufCap := some 2 } }
      s.pState = .awaitingResponse ∧ s.events = [.framer] ∧ s.rx = 0x41 :: [] ∧
      (0x41 : Byte) ≠ 0x0A ∧ (s.params.lineBufCap = some s.lineBuf.length ↔ line = zeros 2) := by decide

/-- A success line, an error line, a line with both, and a line with none. -/
theorem witness_CompleteLineIsClassified :
    (∀ line ∈ [ascii "TRANSFER_COMPLETE", ascii "ERROR", ascii "ERROR TRANSFER_COMPLETE", []],
      let s := sched [.framer] (waiting .transfer line [0x0A] 0 5)
      s.pState = .awaitingResponse ∧ s.events = [.framer] ∧ s.rx = 0x0A :: []) ∧
    ascii "TRANSFER_COMPLETE" <:+: ascii "ERROR TRANSFER_COMPLETE" ∧
    ascii "ERROR" <:+: ascii "ERROR TRANSFER_COMPLETE" ∧
    ¬ ascii "ERROR" <:+: ascii "TRANSFER_COMPLETE" ∧ ¬ ascii "TRANSFER_COMPLETE" <:+: ascii "ERROR" ∧
    ¬ ascii "TRANSFER_COMPLETE" <:+: [] ∧ ¬ ascii "ERROR" <:+: [] := by decide

theorem witness_TokenRowsDecideTheOperation :
    (waiting .reset [] [] 0 5).pState = .awaitingResponse ∧ s0.pState ≠ .awaitingResponse ∧
    ascii "RESET_COMPLETE" <:+: ascii "RESET_COMPLETE" ∧ ¬ ascii "ERROR" <:+: ascii "RESET_COMPLETE" ∧
    ascii "ERROR" <:+: ascii "ERROR" ∧ ¬ ascii "RESET_COMPLETE" <:+: ascii "ERROR" ∧
    ¬ ascii "RESET_COMPLETE" <:+: ascii "TRANSFER_COMPLETE" ∧
    ¬ ascii "ERROR" <:+: ascii "TRANSFER_COMPLETE" := by decide

/-- One tick before the deadline, and at it. -/
theorem witness_TickCountsTowardsTheTimeout :
    (sched [.tick] (waiting .reset [] [] 3 5)).pState = .awaitingResponse ∧
    (sched [.tick] (waiting .reset [] [] 3 5)).events = [.tick] ∧ 3 + 1 < 5 ∧ 4 + 1 ≥ 5 := by decide

theorem witness_IdleTickAndDisabledFramerChangeNothing :
    (sched [.tick] { s0 with pState := .sent }).pState ≠ .awaitingResponse ∧
    (sched [.framer] { s0 with pState := .timedOut }).pState ≠ .sent ∧
    (sched [.framer] { s0 with pState := .timedOut }).pState ≠ .awaitingResponse ∧
    (sched [.framer] (waiting .reset [] [] 0 5)).pState = .awaitingResponse ∧
    (sched [.framer] (waiting .reset [] [] 0 5)).rx = [] := by decide

/-- V-P7: the line is split across two deliveries, and fills a capacity of 17 bytes exactly. -/
theorem witness_WholeLineIsReadInArrivalOrder :
    let s := sched (List.replicate 9 .framer) { waiting .transfer (ascii "TRANSFER_")
      (ascii "COMPLETE" ++ [0x0A] ++ [0x42]) 1 3 with
        params := { Config.defaultParams with lineBufCap := some 17 } }
    s.pState = .awaitingResponse ∧ (0x0A : Byte) ∉ ascii "COMPLETE" ∧
    s.rx = ascii "COMPLETE" ++ [0x0A] ++ [0x42] ∧
    s.events = List.replicate ((ascii "COMPLETE").length + 1) Event.framer ++ [] ∧
    s.params.lineBufCap = some 17 ∧ s.lineBuf.length + (ascii "COMPLETE").length ≤ 17 ∧
    classify s.params.tokenPriority s.pOp (s.lineBuf ++ ascii "COMPLETE") = .success ∧
    classify s.params.tokenPriority s.pOp (ascii "ERROR") = .error ∧
    classify s.params.tokenPriority s.pOp [] = .nonDecisive := by decide

theorem witness_AnsweredTransferSucceeds :
    let line := ascii "TRANSFER_COMPLETE"
    let s := sched ([.command { op := 0x04, data := zeros 16, timeout := 0 }, .framer,
      .peerSend (line ++ [0x0A])] ++ List.replicate (line.length + 1) Event.framer ++ []) s0
    s.catStatus = .valid ∧ s.pState ≠ .sent ∧ s.pState ≠ .awaitingResponse ∧ (zeros 16).length = 16 ∧
    s.params.lineBufCap = none ∧ (0x0A : Byte) ∉ line ∧ ascii "TRANSFER_COMPLETE" <:+: line ∧
    s.params.tokenPriority = .successFirst := by decide

/-- Both operations: one tick short of the deadline, at it, and at the deadline of timeout 0. -/
theorem witness_UnansweredOperationTimesOutAtItsTick :
    (∀ p ∈ [(5, 4), (5, 5), (0, 1)],
      ∀ c ∈ [({ op := 0x04, data := zeros 16, timeout := p.1 } : Command),
             { op := 0x05, timeout := p.1 }],
        let s := sched ([.command c, .framer] ++ List.replicate p.2 Event.tick ++ []) s0
        ((c.op = 0x04 ∧ c.data.length = 16) ∨ c.op = 0x05) ∧
        s.catStatus = .valid ∧ s.pState ≠ .sent ∧ s.pState ≠ .awaitingResponse) ∧
    4 < max 5 1 ∧ 5 = max 5 1 ∧ 1 = max 0 1 := by decide

theorem witness_EveryWaitEndsWithinItsTicks :
    let s := sched [.peerSend [0x41], .tick, .framer, .command { op := 0x01 }, .tick]
      (waiting .transfer [] [] 0 2)
    s.pState = .awaitingResponse ∧ s.elapsed = 0 ∧ 5 ≤ s.events.length ∧
    Event.blockReset ∉ s.events.take 5 ∧ max s.timeoutT 1 ≤ (s.events.take 5).count Event.tick := by
  decide

/-- One step of each row that moves: start, enter the wait, success, error, timeout, block reset. -/
theorem witness_FramerMovesByItsTableOnly :
    (∃ t, step (sched [.command { op := 0x05 }] s0) = .next t ∧ t.pState = .sent) ∧
    (∃ t, step { s0 with pState := .sent } = .next t ∧ t.pState = .awaitingResponse) ∧
    (∃ t, step (waiting .reset (ascii "RESET_COMPLETE") [0x0A] 0 5) = .next t ∧
      t.pState = .completedSuccess) ∧
    (∃ t, step (waiting .transfer (ascii "ERROR") [0x0A] 0 5) = .next t ∧
      t.pState = .completedError (ascii "ERROR")) ∧
    (∃ t, step (sched [.tick] (waiting .transfer [] [] 4 5)) = .next t ∧ t.pState = .timedOut) ∧
    (∃ t, step (sched [.blockReset] (waiting .transfer [] [] 4 5)) = .next t ∧ t.pState = .idle) :=
  ⟨⟨_, rfl, rfl⟩, ⟨_, rfl, rfl⟩, ⟨_, rfl, rfl⟩, ⟨_, rfl, rfl⟩, ⟨_, rfl, rfl⟩, _, rfl, rfl⟩

theorem fix_known : KnownCatalog Config.fixCatalog := (admissible_iff _).mp test_check_fix.2.1

/-- FIX meets W5 to W7, the empty catalog does not. -/
theorem witness_BlockResetSetsTheResetValues :
    (sched [.blockReset] s0).events = [.blockReset] ∧ KnownCatalog s0.params.catalog ∧
    ¬ KnownCatalog ({ s0 with params := { Config.defaultParams with catalog := [] } } :
      State).params.catalog :=
  ⟨rfl, fix_known, fun h => nomatch h.required.1⟩

theorem witness_ResetLeavesTheResetValues :
    KnownCatalog Config.fixCatalog ∧ s0.params.catalog = Config.fixCatalog ∧
    ∃ r, exec .check s0 = .next { s0 with response := some (.result r) } :=
  ⟨fix_known, rfl, _, rfl⟩

theorem witness_EveryStepKeepsTheInvariant :
    StateInv s0 ∧ ∃ t, step s0 = .next t := ⟨s0_inv, _, rfl⟩

theorem witness_RefusalChangesNothingElse :
    ∃ t, step (withIllegal s0) = .next t ∧ t.response = some (.refused .illegalCommand) :=
  ⟨_, rfl, rfl⟩

theorem witness_RefusedIsNeverCleared :
    ({ s0 with refused := true, events := [.blockReset] } : State).refused = true ∧
    ∃ t, Reaches { s0 with refused := true, events := [.blockReset] } t :=
  ⟨rfl, _, reaches_one rfl⟩

theorem witness_CatalogAndModeAreFixed :
    StateInv (withIllegal s0) ∧ ∃ t, Reaches (withIllegal s0) t ∧ t ≠ withIllegal s0 :=
  witness_CheckIsConstantOverARun

theorem witness_HaltedBlockWritesNoFrame :
    StateInv haltedState ∧ haltedState.catStatus ≠ .valid ∧
    ∃ t, Reaches haltedState t ∧ step haltedState = .next t :=
  ⟨halted_inv, (fun h => nomatch h), _, reaches_one rfl, rfl⟩

/-- 10001 microseconds are two ticks of 10 ms, and so is the bound `n`. -/
theorem witness_DurationsRoundUpToTicks : 0 < 10000 ∧ 0 < 1 ∧ 10001 ≤ 2 * 10000 ∧ 0 ≤ 0 * 1 := by decide

theorem witness_ConfigureTransfersWhatAssignPacked :
    (∃ t, exec (.assign []) s0 = .next t ∧
      t.response = some (.result ⟨0x00, .packed (zeros 16) []⟩)) ∧
    (∃ t, exec (.assign []) haltedState = .next t ∧ t.response = some (.refused .halted)) :=
  ⟨⟨_, rfl, by decide +kernel⟩, _, rfl, rfl⟩

end Sys2Proof.Tests
end

section
/-! The rules about single operations and single steps that the statements of spec 10_state need. -/

namespace Sys2Proof.Machine

/-! ### What a step of one event is -/

/-- A scheduled event is taken off the schedule and fetched in the state that is left (R6). -/
theorem step_of_event {s : State} {e : Event} {es : List Event} (he : s.events = e :: es) :
    step s = finishFetch (fetchEvent e { s with events := es }) := by
  rw [step_eq]; simp only [fetch, he]

/-! ### What the operations with a choice in them leave unchanged -/

section TickFrame
variable (s : State)

@[simp] theorem tick_params : (tick s).params = s.params := by
  rcases tick_cases s with ⟨_, e⟩ | ⟨_, _, e⟩ | ⟨_, _, e⟩ <;> simp [e]

@[simp] theorem tick_tx : (tick s).tx = s.tx := by
  rcases tick_cases s with ⟨_, e⟩ | ⟨_, _, e⟩ | ⟨_, _, e⟩ <;> simp [e]

@[simp] theorem tick_refused : (tick s).refused = s.refused := by
  rcases tick_cases s with ⟨_, e⟩ | ⟨_, _, e⟩ | ⟨_, _, e⟩ <;> simp [e]

end TickFrame

section LineDoneFrame
variable (line : ByteString) (s : State)

@[simp] theorem lineDone_params : (lineDone line s).params = s.params := by
  rcases lineDone_cases line s with ⟨_, e⟩ | ⟨_, _, e⟩ | ⟨_, _, e⟩ | ⟨_, _, e⟩ <;> simp [e]

@[simp] theorem lineDone_tx : (lineDone line s).tx = s.tx := by
  rcases lineDone_cases line s with ⟨_, e⟩ | ⟨_, _, e⟩ | ⟨_, _, e⟩ | ⟨_, _, e⟩ <;> simp [e]

@[simp] theorem lineDone_refused : (lineDone line s).refused = s.refused := by
  rcases lineDone_cases line s with ⟨_, e⟩ | ⟨_, _, e⟩ | ⟨_, _, e⟩ | ⟨_, _, e⟩ <;> simp [e]

end LineDoneFrame

section TakeByteFrame
variable (b : Byte) (rest : ByteString) (s : State)

@[simp] theorem takeByte_params : (takeByte b rest s).params = s.params := by
  rcases takeByte_cases b rest s with ⟨_, e⟩ | ⟨_, e⟩ <;> simp [e]

@[simp] theorem takeByte_tx : (takeByte b rest s).tx = s.tx := by
  rcases takeByte_cases b rest s with ⟨_, e⟩ | ⟨_, e⟩ <;> simp [e]

@[simp] theorem takeByte_pState : (takeByte b rest s).pState = s.pState := by
  rcases takeByte_cases b rest s with ⟨_, e⟩ | ⟨_, e⟩ <;> simp [e]

theorem takeByte_refused_of_refused (h : s.refused = true) : (takeByte b rest s).refused = true := by
  rcases takeByte_cases b rest s with ⟨_, e⟩ | ⟨_, e⟩ <;> simp [e, h]

end TakeByteFrame

section ResetBlockFrame
variable (s : State)

@[simp] theorem resetBlock_params : (resetBlock s).params = s.params := by
  rcases resetBlock_cases s with ⟨_, e⟩ | ⟨_, e⟩ <;> simp [e]

@[simp] theorem resetBlock_tx : (resetBlock s).tx = s.tx := by
  rcases resetBlock_cases s with ⟨_, e⟩ | ⟨_, e⟩ <;> simp [e]

theorem resetBlock_refused_of_refused (h : s.refused = true) : (resetBlock s).refused = true := by
  rcases resetBlock_cases s with ⟨_, e⟩ | ⟨_, e⟩ <;> simp [e, h]

/-- An accepted block reset, as one record update (R230). -/
theorem resetBlock_of_admissible (h : admissible s.params.catalog = true) :
    resetBlock s = { s with
      mode := s.params.modeInput.getD .clamp, pState := .idle, pOp := .none, lineBuf := [],
      elapsed := 0, timeoutT := 0, catStatus := checkCatalog s.params.catalog, response := none } := by
  rcases resetBlock_cases s with ⟨_, e⟩ | ⟨hn, _⟩
  · exact e
  · rw [h] at hn; cases hn

/-- A block reset under a catalog parameter that fails W5 to W7 is refused (R34, R208). -/
theorem resetBlock_of_not_admissible (h : admissible s.params.catalog = false) :
    resetBlock s = refuse .badCatalogParameter s := by
  rcases resetBlock_cases s with ⟨hy, _⟩ | ⟨_, e⟩
  · rw [h] at hy; cases hy
  · exact e

end ResetBlockFrame

/-! ### The frame at the front of TX -/

/-- A frame at the front of TX is taken whole (R44, R175). -/
theorem takeFrame_of_append {frame rest : ByteString} {s : State} (h : s.tx = frame ++ rest) :
    takeFrame frame s = { s with tx := rest, response := none } := by
  rcases takeFrame_cases frame s with ⟨rest', hr, e⟩ | ⟨hn, _⟩
  · rw [e, List.append_cancel_left (h.symm.trans hr)]
  · exact absurd ⟨rest, h.symm⟩ hn

theorem takeFrame_of_other_front {frame : ByteString} {s : State} (h : ¬ frame <+: s.tx) :
    takeFrame frame s = quiet s := by
  rcases takeFrame_cases frame s with ⟨rest, hr, _⟩ | ⟨_, e⟩
  · exact absurd ⟨rest, hr.symm⟩ h
  · exact e

/-! ### The classes of a line, by the substrings it holds -/

/-- A line succeeds by the success token, unless ERROR stands in it and goes first (R167). -/
theorem classify_success_iff_substring (priority : TokenPriority) (op : POp) (line : ByteString) :
    classify priority op line = .success ↔
      successToken op <:+: line ∧ (priority = .successFirst ∨ ¬ tokError <:+: line) := by
  rw [classify_success_iff, containsToken_iff, ← containsToken_iff tokError, Bool.not_eq_true]
  cases priority <;> simp

/-- A line fails by the error token, unless the success token stands in it and goes first (R167). -/
theorem classify_error_iff_substring (priority : TokenPriority) (op : POp) (line : ByteString) :
    classify priority op line = .error ↔
      tokError <:+: line ∧ (priority = .errorFirst ∨ ¬ successToken op <:+: line) := by
  rw [classify_error_iff, containsToken_iff, ← containsToken_iff (successToken op), Bool.not_eq_true]
  cases priority <;> simp

/-! ### CHECK's answer -/

theorem exec_check (s : State) : exec .check s =
    .next { s with response := some (.result (checkResult (checkCatalog s.params.catalog))) } := rfl

/-- CHECK's answer is a function of the catalog: no other record is its answer. -/
theorem exec_check_result {s : State} {r : Result}
    (h : exec .check s = .next { s with response := some (.result r) }) :
    r = checkResult (checkCatalog s.params.catalog) := by
  rw [exec_check] at h
  injection h with h
  have hr := congrArg State.response h
  simpa using hr.symm

/-- The verdict and the record it is answered with: Valid on W1 to W4, else the five lists (R100). -/
theorem checkCatalog_cases (catalog : List FieldSpec) :
    (ExactCover catalog ∧ checkCatalog catalog = .valid ∧
      checkResult (checkCatalog catalog) = ⟨0x00, .valid⟩) ∨
    (¬ ExactCover catalog ∧ checkCatalog catalog = .invalid (violations catalog) ∧
      checkResult (checkCatalog catalog) = ⟨0x03, .invalid (violations catalog)⟩) := by
  by_cases hc : ExactCover catalog
  · have hv := (checkCatalog_valid_iff catalog).mpr hc
    exact .inl ⟨hc, hv, by rw [hv]; rfl⟩
  · have hv : checkCatalog catalog = .invalid (violations catalog) := by
      have hn : ¬ (violations catalog).clean = true := fun h =>
        hc ((checkCatalog_valid_iff catalog).mp ((checkCatalog_valid_iff_clean catalog).mpr h))
      simp only [checkCatalog, hn, if_false, Bool.false_eq_true]
    exact .inr ⟨hc, hv, by rw [hv]; rfl⟩

/-- The names of a list stand in the order of their first occurrence (R102). -/
theorem firstOccurrences_pairwise_idxOf : ∀ ns : List FieldName,
    (firstOccurrences ns).Pairwise fun a b => ns.idxOf a < ns.idxOf b
  | [] => List.Pairwise.nil
  | m :: ns => by
    refine List.pairwise_cons.mpr ⟨fun b hb => ?_, ?_⟩
    · have hbm : b ≠ m := by simpa using (List.mem_filter.mp hb).2
      rw [List.idxOf_cons_self, List.idxOf_cons_ne _ hbm.symm]
      exact Nat.succ_pos _
    · refine ((firstOccurrences_pairwise_idxOf ns).filter _).imp_of_mem fun ha hb hlt => ?_
      have ham := (List.mem_filter.mp ha).2
      have hbm := (List.mem_filter.mp hb).2
      rw [List.idxOf_cons_ne _ (by simpa using ham : _ ≠ m).symm,
        List.idxOf_cons_ne _ (by simpa using hbm : _ ≠ m).symm]
      exact Nat.succ_lt_succ hlt

theorem duplicateNames_pairwise_idxOf (catalog : List FieldSpec) :
    (duplicateNames catalog).Pairwise fun a b =>
      (catalog.map FieldSpec.name).idxOf a < (catalog.map FieldSpec.name).idxOf b :=
  (firstOccurrences_pairwise_idxOf _).filter _

/-- How many entries count for a position, in the words of W1, W2 and the range (R100, R101). -/
theorem coverCount_eq_filter (catalog : List FieldSpec) (i : Nat) :
    coverCount catalog i = (catalog.filter fun f =>
      1 ≤ f.width ∧ f.off ≤ 127 ∧ f.width ≤ f.off + 1 ∧ f.off + 1 ≤ i + f.width ∧
        i ≤ f.off).length := by
  unfold coverCount
  congr 1
  refine List.filter_congr fun f _ => ?_
  rw [Bool.eq_iff_iff, occupies_iff, decide_eq_true_iff]
  tauto

/-- The names with a bad width are those of the fields that fail W1. -/
theorem violations_badWidth (catalog : List FieldSpec) : (violations catalog).badWidth =
    (catalog.filter fun f => f.width < 1).map FieldSpec.name := by
  refine congrArg _ (List.filter_congr fun f _ => ?_)
  rw [Bool.eq_iff_iff, Bool.not_eq_true', ← Bool.not_eq_true, widthOk_iff, decide_eq_true_iff]
  omega

/-- The names out of range are those of the fields that meet W1 and fail W2. -/
theorem violations_outOfRange (catalog : List FieldSpec) : (violations catalog).outOfRange =
    (catalog.filter fun f => 1 ≤ f.width ∧ (127 < f.off ∨ f.off + 1 < f.width)).map
      FieldSpec.name := by
  refine congrArg _ (List.filter_congr fun f _ => ?_)
  rw [Bool.eq_iff_iff, Bool.and_eq_true, Bool.not_eq_true', ← Bool.not_eq_true, widthOk_iff,
    inRange_iff, decide_eq_true_iff]
  omega

/-! ### What every step keeps -/

/-- A step that keeps a property keeps it along every run. -/
theorem Reaches.invariant {P : State → Prop} (hstep : ∀ s t, P s → step s = .next t → P t)
    {s t : State} (hs : P s) (h : Reaches s t) : P t := by
  induction h with
  | refl => exact hs
  | tail _ hut ih => exact hstep _ _ ih hut

/-- No step changes a parameter (R35). -/
theorem step_params {s t : State} (h : step s = .next t) : t.params = s.params := by
  cases step_effect h <;> simp

/-- No step clears REFUSED (R45). -/
theorem step_refused_of_refused {s t : State} (hr : s.refused = true) (h : step s = .next t) :
    t.refused = true := by
  cases step_effect h
  case takeByte => exact takeByte_refused_of_refused _ _ _ hr
  case blockReset => exact resetBlock_refused_of_refused _ hr
  all_goals simp [hr]

end Sys2Proof.Machine
end

section
/-! The invariant of the state: it holds after a block reset, and every effect of a step keeps it. -/

namespace Sys2Proof.Machine

/-- A block that is not idle has passed CHECK (R204). -/
theorem StateInv.catStatus_valid {s : State} (h : StateInv s) (hp : s.pState ≠ .idle) :
    s.catStatus = .valid :=
  Classical.byContradiction fun hc => hp (h.halted hc)

/-- The invariant does not speak of the streams, of REFUSED or of the model's own two fields. -/
theorem StateInv.frame {s : State} (h : StateInv s) (tx rx : ByteString) (refused : Bool)
    (response : Option Response) (events : List Event) :
    StateInv { s with tx := tx, rx := rx, refused := refused, response := response,
                      events := events } :=
  ⟨h.catalog, h.mode, h.halted, h.operation, h.line, h.capacity, h.unfinished, h.waiting,
    h.deadline, h.message⟩

theorem StateInv.consumeEvent {s : State} (h : StateInv s) : StateInv (consumeEvent s) :=
  h.frame ..

theorem StateInv.quiet {s : State} (h : StateInv s) : StateInv (quiet s) := h.frame ..

theorem StateInv.refuse {s : State} (h : StateInv s) (reason : RefuseReason) :
    StateInv (refuse reason s) := h.frame ..

/-- The reset values meet the invariant, whatever the streams, REFUSED and the model's fields hold. -/
theorem StateInv.of_resetValues {s : State} (hcat : s.catStatus = checkCatalog s.params.catalog)
    (hmode : s.mode = s.params.modeInput.getD .clamp) (hp : s.pState = .idle) (ho : s.pOp = .none)
    (hl : s.lineBuf = []) : StateInv s where
  catalog := hcat
  mode := hmode
  halted := fun _ => hp
  operation := by simp [hp, ho]
  line := by simp [hl]
  capacity := by simp [hl]
  unfinished := fun _ _ => hl
  waiting := by simp [hp]
  deadline := by simp [hp]
  message := by simp [hp]

theorem StateInv.boot (p : Params) (tx rx : ByteString) : StateInv (State.boot p tx rx) :=
  .of_resetValues rfl rfl rfl rfl rfl

theorem StateInv.resetBlock {s : State} (h : StateInv s) : StateInv (resetBlock s) := by
  rcases resetBlock_cases s with ⟨_, e⟩ | ⟨_, e⟩ <;> rw [e]
  · exact .of_resetValues rfl rfl rfl rfl rfl
  · exact h.refuse _

/-- An operation starts only on a block that is not halted, with LINEBUF emptied (R163, R204). -/
theorem StateInv.start {s : State} (h : StateInv s) {op : POp} (hop : op ≠ .none)
    (hv : s.catStatus = .valid) (frame : ByteString) (t : Nat) : StateInv (start op frame t s) where
  catalog := h.catalog
  mode := h.mode
  halted := fun hc => absurd hv hc
  operation := by simp [hop]
  line := by simp
  capacity := by simp
  unfinished := by simp
  waiting := by simp
  deadline := by simp
  message := by simp

theorem StateInv.enterWait {s : State} (h : StateInv s) (hp : s.pState = .sent) :
    StateInv (enterWait s) where
  catalog := h.catalog
  mode := h.mode
  halted := fun hc => absurd (h.catStatus_valid (by simp [hp])) hc
  operation := by simp [← h.operation, hp]
  line := h.line
  capacity := h.capacity
  unfinished := by simp
  waiting := fun _ => .inl rfl
  deadline := by simp
  message := by simp

/-- A byte joins LINEBUF only where it is no LF and there is room for it (R42, R166, R172). -/
theorem StateInv.takeByte {s : State} (h : StateInv s) (hp : s.pState = .awaitingResponse) {b : Byte}
    (hb : b ≠ lf) (rest : ByteString) : StateInv (takeByte b rest s) := by
  rcases takeByte_cases b rest s with ⟨_, e⟩ | ⟨hroom, e⟩ <;> rw [e]
  · exact h.refuse _
  · refine { h.frame s.tx rest s.refused none s.events with
      line := ?line, capacity := ?capacity, unfinished := fun hn => absurd hp hn }
    case line => simpa [hb.symm] using h.line
    case capacity =>
      intro cap hcap
      have hle := h.capacity cap hcap
      have hne : cap ≠ s.lineBuf.length := fun he => hroom (he ▸ hcap)
      simp only [List.length_append, List.length_singleton]
      omega

theorem StateInv.clearLine {s : State} (h : StateInv s) : StateInv (clearLine s) where
  catalog := h.catalog
  mode := h.mode
  halted := h.halted
  operation := h.operation
  line := by simp
  capacity := by simp
  unfinished := fun _ _ => rfl
  waiting := h.waiting
  deadline := h.deadline
  message := h.message

/-- A wait that a line ends leaves an empty LINEBUF and, where it failed, the line with its token. -/
theorem StateInv.finish_of_line {s : State} (h : StateInv s) (hw : s.pState = .awaitingResponse)
    (hl : s.lineBuf = []) {p : PState}
    (hp : p = .completedSuccess ∨ ∃ msg, p = .completedError msg ∧ containsToken tokError msg = true) :
    StateInv (finish p s) where
  catalog := h.catalog
  mode := h.mode
  halted := fun hc => absurd (h.catStatus_valid (by simp [hw])) hc
  operation := by rcases hp with rfl | ⟨msg, rfl, _⟩ <;> simp [← h.operation, hw]
  line := h.line
  capacity := h.capacity
  unfinished := fun _ _ => hl
  waiting := by rcases hp with rfl | ⟨msg, rfl, _⟩ <;> simp
  deadline := by rcases hp with rfl | ⟨msg, rfl, _⟩ <;> simp
  message := by rcases hp with rfl | ⟨msg, rfl, hm⟩ <;> simp [*]

theorem StateInv.lineDone {s : State} (h : StateInv s) (line : ByteString) :
    StateInv (lineDone line s) := by
  rcases lineDone_cases line s with ⟨_, e⟩ | ⟨hw, _, e⟩ | ⟨hw, hc, e⟩ | ⟨_, _, e⟩ <;> rw [e]
  · exact h.quiet
  · exact h.clearLine.finish_of_line hw rfl (.inl rfl)
  · have hm := ((classify_error_iff _ _ _).mp hc).1
    exact h.clearLine.finish_of_line hw rfl (.inr ⟨line, rfl, hm⟩)
  · exact h.clearLine.quiet

/-- A tick lets the wait go on below its deadline and ends it exactly at the deadline (R168). -/
theorem StateInv.tick {s : State} (h : StateInv s) : StateInv (tick s) := by
  rcases tick_cases s with ⟨_, e⟩ | ⟨hw, hd, e⟩ | ⟨hw, hd, e⟩ <;> rw [e]
  · exact h.quiet
  · have hwait := h.waiting hw
    exact
      { catalog := h.catalog
        mode := h.mode
        halted := fun hc => absurd (h.catStatus_valid (by simp [hw])) hc
        operation := by simp [← h.operation, hw]
        line := h.line
        capacity := h.capacity
        unfinished := by simp
        waiting := by simp
        deadline := fun _ => by simp only [finish_elapsed, finish_timeoutT]; omega
        message := by simp }
  · exact { h.quiet with
      waiting := fun _ => .inr hd
      deadline := by simp [hw] }

theorem Starts.ne_none {c : Command} {op : POp} {frame : ByteString} (h : Starts c op frame) :
    op ≠ .none := by
  cases h <;> simp

/-- Every effect of a step keeps the invariant. -/
theorem StepEffect.keeps_stateInv {s t : State} (hi : StateInv s) (h : StepEffect s t) :
    StateInv t := by
  have hc : StateInv (consumeEvent s) := hi.consumeEvent
  cases h with
  | quiet => exact hc.quiet
  | reply r => exact hc.frame ..
  | refuse reason => exact hc.refuse reason
  | start op frame c es _ hs hv => exact hc.start hs.ne_none hv frame c.timeout
  | peerTake n => exact hc.frame ..
  | peerSend bytes => exact hc.frame ..
  | tick => exact hc.tick
  | blockReset => exact hc.resetBlock
  | enterWait _ hp => exact hc.enterWait hp
  | takeByte b rest _ hp _ hb => exact hc.takeByte hp hb rest
  | line rest => exact (show StateInv (popLf rest _) from hc.frame ..).lineDone s.lineBuf

/-- Settles O48, by the effects a step can have: each keeps the invariant. -/
theorem everyStepKeepsTheInvariant : Obligations.EveryStepKeepsTheInvariant :=
  fun _ _ hi h => (step_effect h).keeps_stateInv hi

/-- Settles O49: both states hold the reset values. -/
theorem resetMeetsTheInvariant : Obligations.ResetMeetsTheInvariant :=
  ⟨StateInv.boot, StateInv.boot _ _ _⟩

/-- Settles O51, along the run: no step clears REFUSED. -/
theorem refusedIsNeverCleared : Obligations.RefusedIsNeverCleared :=
  fun _ _ hr h => h.invariant (P := fun u => u.refused = true)
    (fun _ _ => step_refused_of_refused) hr

/-- Settles O52: the parameters are kept by every step, and the invariant ties MODE to them. -/
theorem catalogAndModeAreFixed : Obligations.CatalogAndModeAreFixed := by
  intro s t hi h
  obtain ⟨ht, hp⟩ := h.invariant (P := fun u => StateInv u ∧ u.params = s.params)
    (fun u v ⟨hu, hp⟩ huv =>
      ⟨everyStepKeepsTheInvariant u v hu huv, (step_params huv).trans hp⟩) ⟨hi, rfl⟩
  exact ⟨hp, by rw [ht.mode, hi.mode, hp]⟩

end Sys2Proof.Machine
end

section
/-! CHECK and the catalog conditions, and the block reset with CHECK's verdict. -/

namespace Sys2Proof.Machine

/-- Settles O11: the two verdicts of CHECK, with each list of the report in R100's words. -/
theorem checkAnswersTheViolationReport : Obligations.CheckAnswersTheViolationReport := by
  intro s
  rcases checkCatalog_cases s.params.catalog with ⟨hc, _, hr⟩ | ⟨hc, _, hr⟩
  · exact ⟨fun _ => by rw [exec_check, hr], fun hn => absurd hc hn⟩
  · refine ⟨fun h => absurd h hc, fun _ => ⟨violations s.params.catalog, by rw [exec_check, hr],
      violations_badWidth _, violations_outOfRange _, ?gaps, ?overlaps, mem_duplicateNames _,
      duplicateNames_pairwise_idxOf _⟩⟩
    case gaps => simp only [violations, coverCount_eq_filter]; rfl
    case overlaps => simp only [violations, coverCount_eq_filter]; rfl

theorem lo_nonneg_iff (f : FieldSpec) : 0 ≤ f.lo ↔ f.width ≤ f.off + 1 := by
  unfold FieldSpec.lo; omega

theorem lo_le_iff (f : FieldSpec) (i : Nat) : f.lo ≤ (i : Int) ↔ f.off + 1 ≤ i + f.width := by
  unfold FieldSpec.lo; omega

/-- Settles O12: W1 to W4 are an exact cover, W5 to W7 a known catalog. -/
theorem wellFormedCatalogIsW1ToW7 : Obligations.WellFormedCatalogIsW1ToW7 := by
  intro catalog
  refine ⟨(checkCatalog_valid_iff catalog).trans ?_, (admissible_iff catalog).trans ?_⟩
  · simp only [lo_nonneg_iff, lo_le_iff, ← List.length_eq_one_iff]
    exact ⟨fun ⟨hw, hb, ho, hn⟩ => ⟨hw, hb, ho, hn⟩, fun ⟨hw, hb, ho, hn⟩ => ⟨hw, hb, ho, hn⟩⟩
  · exact ⟨fun ⟨h5, ⟨ha, hb, hc⟩, hd, he⟩ => ⟨h5, ha, hb, hc, hd, he⟩,
      fun ⟨h5, ha, hb, hc, hd, he⟩ => ⟨h5, ⟨ha, hb, hc⟩, hd, he⟩⟩

/-- Settles O46, by the verdict of CHECK and by whether the catalog parameter is accepted. -/
theorem blockResetSetsTheResetValues : Obligations.BlockResetSetsTheResetValues := by
  intro s es he
  have hstep : step s = .next (resetBlock { s with events := es }) := step_of_event he
  refine ⟨fun hk => ⟨checkResult (checkCatalog s.params.catalog), checkCatalog s.params.catalog,
    exec_check s, ?_, ?_⟩, fun hk => ?_⟩
  · rw [hstep, resetBlock_of_admissible { s with events := es } ((admissible_iff _).mpr hk)]
  · rcases checkCatalog_cases s.params.catalog with ⟨hc, hv, hr⟩ | ⟨hc, hv, hr⟩
    · exact .inl ⟨hr, hv, hc⟩
    · exact .inr ⟨_, hr, hv, hc⟩
  · have hn : admissible s.params.catalog = false := by
      rw [← Bool.not_eq_true, admissible_iff]; exact hk
    rw [hstep, resetBlock_of_not_admissible { s with events := es } hn]; rfl

/-- Settles O47: the reset values stand in `State.boot`, and CHECK answers the verdict stored there. -/
theorem resetLeavesTheResetValues : Obligations.ResetLeavesTheResetValues := by
  intro p tx rx hk
  refine ⟨rfl, fun s r hs hr => ?_, rfl, rfl, rfl, rfl, rfl, rfl, rfl, ?_⟩
  · have hr := exec_check_result hr
    rw [hs] at hr
    rcases checkCatalog_cases p.catalog with ⟨_, hv, he⟩ | ⟨_, hv, he⟩
    · exact .inl ⟨hr.trans he, hv⟩
    · exact .inr ⟨_, hr.trans he, hv⟩
  · simp [State.boot, (admissible_iff _).mpr hk]

end Sys2Proof.Machine
end

section
/-! The packer writes no state, the peer moves stream bytes only, and TX and P_STATE change by their rules
only. -/

namespace Sys2Proof.Machine

/-- What a command of the packer leaves: its answer, and REFUSED where the answer is a refusal (R47). -/
def packerNext (isRefused : Bool) (r : Response) (s : State) : State :=
  { s with refused := s.refused || isRefused, response := some r }

theorem reply_eq_packerNext (r : Result) (s : State) :
    reply r s = packerNext false (.result r) s := by
  simp [reply, packerNext]

theorem refuse_eq_packerNext (reason : RefuseReason) (s : State) :
    refuse reason s = packerNext true (.refused reason) s := by
  simp [refuse, packerNext]

/-- ASSIGN's answer is a function of the operand, the catalog, MODE and CAT_STATUS. -/
theorem execAssign_pure (values : FieldValues) {s s' : State} (hp : s.params = s'.params)
    (hm : s.mode = s'.mode) (hc : s.catStatus = s'.catStatus) :
    ∃ isRefused r, execAssign values s = .next (packerNext isRefused r s) ∧
      execAssign values s' = .next (packerNext isRefused r s') := by
  have hh : halted s = halted s' := by simp only [halted, hc]
  unfold execAssign
  rw [hp, hm, hh]
  simp only [reply_eq_packerNext, refuse_eq_packerNext]
  by_cases h : halted s' = true
  · simp only [if_pos h]; exact ⟨_, _, rfl, rfl⟩
  · by_cases hn : values.names.Nodup
    · simp only [if_neg h, if_pos hn]
      cases assignFields s'.mode values s'.params.catalog 0 [] with
      | ok packed => exact ⟨_, _, rfl, rfl⟩
      | error e => exact ⟨_, _, rfl, rfl⟩
    · simp only [if_neg h, if_neg hn]; exact ⟨_, _, rfl, rfl⟩

/-- DECODE's answer is a function of the operand, the catalog and CAT_STATUS. -/
theorem execDecode_pure (data : ByteString) {s s' : State} (hp : s.params = s'.params)
    (hc : s.catStatus = s'.catStatus) :
    ∃ isRefused r, execDecode data s = .next (packerNext isRefused r s) ∧
      execDecode data s' = .next (packerNext isRefused r s') := by
  have hh : halted s = halted s' := by simp only [halted, hc]
  unfold execDecode
  rw [hp, hh]
  simp only [reply_eq_packerNext, refuse_eq_packerNext]
  by_cases hl : (!sixteenBytes data) = true
  · simp only [if_pos hl]; exact ⟨_, _, rfl, rfl⟩
  · by_cases h : halted s' = true
    · simp only [if_neg hl, if_pos h]; exact ⟨_, _, rfl, rfl⟩
    · simp only [if_neg hl, if_neg h]; exact ⟨_, _, rfl, rfl⟩

/-- Settles O28, by the three commands. -/
theorem packerIsPure : Obligations.PackerIsPure := by
  rintro s s' i (rfl | ⟨values, rfl⟩ | ⟨data, rfl⟩) hp hm hc
  · refine ⟨false, .result (checkResult (checkCatalog s.params.catalog)), ?_, ?_⟩
    · simp [exec_check]
    · simp [exec_check, hp]
  · exact execAssign_pure values hp hm hc
  · exact execDecode_pure data hp hc

/-- Settles O32: both rows take a frame from the front of TX. -/
theorem frameRowsAreTakenFromTheFrontOfTx : Obligations.FrameRowsAreTakenFromTheFrontOfTx :=
  ⟨fun _ _ _ h => congrArg _ (takeFrame_of_append h), fun _ _ h => congrArg _ (takeFrame_of_append h),
    fun _ _ h => congrArg _ (takeFrame_of_other_front h),
    fun _ h => congrArg _ (takeFrame_of_other_front h)⟩

/-- Settles O34: the bytes the peer takes are the first of TX. -/
theorem peerStepsMoveStreamBytesOnly : Obligations.PeerStepsMoveStreamBytesOnly := by
  refine ⟨fun s taken rest es he htx => ?_, fun s bytes es he => step_of_event he⟩
  have hrest : s.tx.drop taken.length = rest := by rw [htx, List.drop_left]
  rw [step_of_event he, ← hrest]; rfl

/-- The frame a command record starts is a whole DATA frame or the RESET frame (R88, R89). -/
theorem Starts.frame_eq {c : Command} {op : POp} {frame : ByteString} (h : Starts c op frame) :
    (∃ data : ByteString, data.length = 16 ∧ frame = [0x3C] ++ data ++ [0x3E]) ∨ frame = [0x52] := by
  cases h with
  | data _ hl => exact .inl ⟨c.data, hl, rfl⟩
  | reset _ => exact .inr rfl

/-- Settles O33: only the start of an operation writes TX, and only the peer takes from it. -/
theorem stepWritesOneWholeFrameOrNothing : Obligations.StepWritesOneWholeFrameOrNothing := by
  intro s t h
  cases step_effect h
  case start op frame c es _ hs _ _ _ => exact .inr hs.frame_eq
  case peerTake n => exact .inl (List.drop_suffix n s.tx)
  all_goals exact .inl (by simp)

/-- Settles O45, by the effects a step can have; those not in the table leave P_STATE as it is. -/
theorem framerMovesByItsTableOnly : Obligations.FramerMovesByItsTableOnly := by
  intro s t h succ
  cases step_effect h with
  | quiet => exact .inl rfl
  | reply r => exact .inl rfl
  | refuse reason => exact .inl rfl
  | peerTake n => exact .inl rfl
  | peerSend bytes => exact .inl rfl
  | takeByte b rest => exact .inl (takeByte_pState b rest _)
  | start op frame c es he hs hv hns hnw =>
    refine .inr <| .inl ⟨c, es, he, hv, hns, hnw, rfl, rfl, ?_⟩
    cases hs with
    | data hop hl => exact .inl ⟨hop, hl, rfl, rfl⟩
    | reset hop => exact .inr ⟨hop, rfl, rfl⟩
  | enterWait ha hp => exact .inr <| .inr <| .inl ⟨ha, hp, rfl, rfl⟩
  | line rest ha hp hrx =>
    rcases lineDone_cases s.lineBuf (popLf rest (consumeEvent s)) with
      ⟨hn, _⟩ | ⟨_, hc, e⟩ | ⟨_, hc, e⟩ | ⟨_, _, e⟩
    · exact absurd hp hn
    · obtain ⟨hsucc, hpri⟩ := (classify_success_iff_substring _ _ _).mp hc
      rw [e]
      exact .inr <| .inr <| .inr <| .inl ⟨ha, hp, hrx, hsucc, hpri, rfl, rfl⟩
    · obtain ⟨herr, hpri⟩ := (classify_error_iff_substring _ _ _).mp hc
      rw [e]
      exact .inr <| .inr <| .inr <| .inr <| .inl ⟨ha, hp, hrx, herr, hpri, rfl, rfl⟩
    · rw [e]; exact .inl rfl
  | tick he hp =>
    rcases tick_cases (consumeEvent s) with ⟨hn, _⟩ | ⟨_, hd, e⟩ | ⟨_, _, e⟩
    · exact absurd hp hn
    · rw [e]
      exact .inr <| .inr <| .inr <| .inr <| .inr <| .inl ⟨he, hp, hd, rfl, rfl⟩
    · rw [e]; exact .inl rfl
  | blockReset he ha =>
    rw [resetBlock_of_admissible (consumeEvent s) ha]
    exact .inr <| .inr <| .inr <| .inr <| .inr <| .inr ⟨he, (admissible_iff _).mp ha, rfl⟩

end Sys2Proof.Machine
end

section
/-! The owner of a register position under a catalog that passes CHECK. -/

namespace Sys2Proof.Machine

/-- The range of a field by its lowest position, which is an integer (R33). -/
theorem inFieldRange_iff_lo (f : FieldSpec) (p : Nat) :
    inFieldRange f p ↔ f.lo ≤ (p : Int) ∧ p ≤ f.off := by
  rw [lo_le_iff, inFieldRange]

/-- Under W1 and W2 a field counts for exactly the positions of its range (R101). -/
theorem ExactCover.occupies_iff_inFieldRange {catalog : List FieldSpec} (h : ExactCover catalog)
    {f : FieldSpec} (hf : f ∈ catalog) (p : Nat) : occupies f p = true ↔ inFieldRange f p := by
  simp only [occupies_iff, h.bounds f hf, h.width f hf, true_and, and_self, inFieldRange]

/-- What `fieldAt` finds is an entry of the catalog that counts for the position. -/
theorem mem_and_occupies_of_fieldAt {catalog : List FieldSpec} {f : FieldSpec} {p : Nat}
    (h : fieldAt catalog p = some f) : f ∈ catalog ∧ occupies f p = true :=
  ⟨List.mem_of_find?_eq_some h, List.find?_some (p := fun g => occupies g p) h⟩

/-- Under an exact cover `fieldAt` finds a field exactly where the field's range holds the position: the
first match is the only one (R105). -/
theorem ExactCover.fieldAt_eq_some_iff {catalog : List FieldSpec} (h : ExactCover catalog)
    {p : Nat} (hp : p < 128) (f : FieldSpec) :
    fieldAt catalog p = some f ↔ f ∈ catalog ∧ inFieldRange f p := by
  have sound : ∀ g, fieldAt catalog p = some g → g ∈ catalog ∧ inFieldRange g p := fun g hg => by
    obtain ⟨hmem, hocc⟩ := mem_and_occupies_of_fieldAt hg
    exact ⟨hmem, (h.occupies_iff_inFieldRange hmem p).mp hocc⟩
  refine ⟨sound f, fun ⟨hf, hr⟩ => ?_⟩
  cases hfind : fieldAt catalog p with
  | none =>
    have hnone := List.find?_eq_none.mp hfind f hf
    exact absurd ((h.occupies_iff_inFieldRange hf p).mpr hr) hnone
  | some g =>
    obtain ⟨hg, hgr⟩ := sound g hfind
    obtain ⟨o, _, _, unique⟩ := h.owner p hp
    rw [unique g hg hgr, unique f hf hr]

/-- Settles O15: the owner the exact cover gives is the field `fieldAt` finds. -/
theorem everyPositionHasOneOwner : Obligations.EveryPositionHasOneOwner := by
  intro catalog p hvalid hp
  have hcover := (checkCatalog_valid_iff catalog).mp hvalid
  obtain ⟨f, hf, hr, unique⟩ := hcover.owner p hp
  obtain ⟨hlo, hoff⟩ := (inFieldRange_iff_lo f p).mp hr
  exact ⟨f, hf, (hcover.fieldAt_eq_some_iff hp f).mpr ⟨hf, hr⟩, hlo, hoff,
    fun g hg hglo hgoff => unique g hg ((inFieldRange_iff_lo g p).mpr ⟨hglo, hgoff⟩)⟩

end Sys2Proof.Machine
end

section
/-! The decoder of each encoding space, said once per op byte, frame and token, and its agreement with the
encoder. -/

namespace Sys2Proof.Machine

/-! ### The host opcode map -/

section HostOpcodes
variable {c : Command}

theorem decodeHost_of_op_check (h : c.op = 0x01) : decodeHost c = .ok .check := by
  simp [decodeHost, h]

theorem decodeHost_of_op_assign (h : c.op = 0x02) : decodeHost c = .ok (.assign c.values) := by
  simp [decodeHost, h]

theorem decodeHost_of_op_decode (h : c.op = 0x03) : decodeHost c =
    if c.data.length = 16 then .ok (.decode c.data) else .error .badOperandLength := by
  simp [decodeHost, h, Config.nBytes]

theorem decodeHost_of_op_transfer (h : c.op = 0x04) : decodeHost c =
    if c.data.length = 16 then .ok (.transfer c.data c.timeout) else .error .badOperandLength := by
  simp [decodeHost, h, Config.nBytes]

theorem decodeHost_of_op_reset (h : c.op = 0x05) : decodeHost c = .ok (.reset c.timeout) := by
  simp [decodeHost, h]

/-- An op byte outside 0x01 to 0x05 selects no command (R83). -/
theorem decodeHost_of_op_reserved (h : c.op = 0x00 ∨ 0x06 ≤ c.op.toNat) :
    decodeHost c = .ok (.illegal c.op) := by
  have hop : c.op.toNat = 0 ∨ 6 ≤ c.op.toNat := h.imp_left fun h0 => by rw [h0]; rfl
  unfold decodeHost
  split
  case h_6 => rfl
  all_goals omega

/-- Data of another length than 16 bytes is rejected where the command reads its data (R85, R86). -/
theorem decodeHost_of_other_length (h : c.op = 0x03 ∨ c.op = 0x04) (hl : c.data.length ≠ 16) :
    decodeHost c = .error .badOperandLength := by
  rcases h with h | h
  · rw [decodeHost_of_op_decode h, if_neg hl]
  · rw [decodeHost_of_op_transfer h, if_neg hl]

end HostOpcodes

/-- Settles O3, by the op bytes. -/
theorem opBytesSelectTheirCommands : Obligations.OpBytesSelectTheirCommands := fun _ =>
  ⟨decodeHost_of_op_check, decodeHost_of_op_assign, decodeHost_of_op_decode,
    decodeHost_of_op_transfer, decodeHost_of_op_reset, decodeHost_of_op_reserved⟩

/-! ### The frames on TX -/

/-- A DATA frame reads back as its 16 bytes, whatever they are and whatever follows (R88, R90). -/
theorem decodeFrame_dataFrame_append {data : ByteString} (h : data.length = 16) (rest : ByteString) :
    decodeFrame (dataFrame data ++ rest) = .ok (.frameData data) := by
  have hdrop : (data ++ endDelimiter :: rest).drop 16 = endDelimiter :: rest := List.drop_left' h
  have htake : (data ++ endDelimiter :: rest).take 16 = data := List.take_left' h
  have hne : startDelimiter ≠ resetByte := by decide
  simp [dataFrame, decodeFrame, hne, hdrop, htake]

theorem decodeFrame_resetFrame_append (rest : ByteString) :
    decodeFrame (resetFrame ++ rest) = .ok .frameReset := rfl

/-- An end delimiter after 16 bytes closes the DATA frame of these bytes (R88). -/
theorem dataFrame_of_drop {bs rest : ByteString} (h : bs.drop 16 = endDelimiter :: rest) :
    (bs.take 16).length = 16 ∧ startDelimiter :: bs = dataFrame (bs.take 16) ++ rest := by
  have hlen := congrArg List.length h
  simp only [List.length_drop, List.length_cons] at hlen
  refine ⟨by rw [List.length_take]; omega, ?_⟩
  calc startDelimiter :: bs = startDelimiter :: (bs.take 16 ++ endDelimiter :: rest) := by
        rw [← h, List.take_append_drop]
    _ = dataFrame (bs.take 16) ++ rest := by simp [dataFrame]

/-- What reads as a frame is a DATA frame of 16 bytes or a RESET frame, with the bytes after it (R91). -/
theorem decodeFrame_ok_cases {bytes : ByteString} {i : Instr} (h : decodeFrame bytes = .ok i) :
    (∃ data rest, data.length = 16 ∧ i = .frameData data ∧ bytes = dataFrame data ++ rest) ∨
    (∃ rest, i = .frameReset ∧ bytes = resetFrame ++ rest) := by
  cases bytes with
  | nil => cases h
  | cons b bs =>
    by_cases hreset : b = resetByte
    · subst hreset; cases h; exact .inr ⟨bs, rfl, rfl⟩
    by_cases hstart : b = startDelimiter
    · subst hstart
      simp only [decodeFrame, if_neg hreset, if_true] at h
      cases hdrop : bs.drop 16 with
      | nil => simp [hdrop] at h
      | cons e rest =>
        by_cases hend : e = endDelimiter
        · subst hend
          simp only [hdrop, if_true] at h
          cases h
          obtain ⟨hlen, hbs⟩ := dataFrame_of_drop hdrop
          exact .inl ⟨bs.take 16, rest, hlen, rfl, hbs⟩
        · simp [hdrop, hend] at h
    · simp [decodeFrame, hreset, hstart] at h

/-- Settles O2: both frames read back from the front of TX, and only they do. -/
theorem framesAreToldFromTheirFirstByte : Obligations.FramesAreToldFromTheirFirstByte :=
  ⟨fun _ rest h => decodeFrame_dataFrame_append h rest, decodeFrame_resetFrame_append,
    fun _ _ h => decodeFrame_ok_cases h⟩

/-! ### The token lines -/

theorem decodeLine_of_transferComplete {line : ByteString}
    (h : containsToken tokTransferComplete line = true) :
    decodeLine line = .ok (.tokenTransferComplete line) := by
  simp [decodeLine, h]

theorem decodeLine_of_resetComplete {line : ByteString}
    (ht : containsToken tokTransferComplete line = false)
    (h : containsToken tokResetComplete line = true) :
    decodeLine line = .ok (.tokenResetComplete line) := by
  simp [decodeLine, ht, h]

theorem decodeLine_of_error {line : ByteString}
    (ht : containsToken tokTransferComplete line = false)
    (hr : containsToken tokResetComplete line = false) (h : containsToken tokError line = true) :
    decodeLine line = .ok (.tokenError line) := by
  simp [decodeLine, ht, hr, h]

/-! ### Decode after encode -/

/-- A DECODE record of 16 bytes reads back (R82, R85). -/
theorem decode_encode_decode {data : ByteString} (h : data.length = 16) :
    decode (encode (.decode data)) = .ok (.decode data) :=
  (decodeHost_of_op_decode (c := { op := 0x03, data := data }) rfl).trans (if_pos h)

/-- A TRANSFER record of 16 bytes reads back (R82, R86). -/
theorem decode_encode_transfer {data : ByteString} (h : data.length = 16) (timeout : Nat) :
    decode (encode (.transfer data timeout)) = .ok (.transfer data timeout) :=
  (decodeHost_of_op_transfer (c := { op := 0x04, data := data, timeout := timeout }) rfl).trans
    (if_pos h)

theorem decode_encode_frameData {data : ByteString} (h : data.length = 16) :
    decode (encode (.frameData data)) = .ok (.frameData data) := by
  have hread := decodeFrame_dataFrame_append h []
  rwa [List.append_nil] at hread

/-- Settles O1, by the rows of the table: each encoding is read back by its own space's rule. -/
theorem decodeOfEncodeIsTheInstruction : Obligations.DecodeOfEncodeIsTheInstruction := by
  intro i hwf
  cases i with
  | check => exact decodeHost_of_op_check (c := { op := 0x01 }) rfl
  | assign values => exact decodeHost_of_op_assign (c := { op := 0x02, values := values }) rfl
  | decode data => exact decode_encode_decode (of_decide_eq_true hwf)
  | transfer data timeout => exact decode_encode_transfer (of_decide_eq_true hwf) timeout
  | reset timeout => exact decodeHost_of_op_reset (c := { op := 0x05, timeout := timeout }) rfl
  | illegal op =>
    have hop : op.toNat = 0 ∨ 6 ≤ op.toNat := of_decide_eq_true hwf
    exact decodeHost_of_op_reserved (hop.imp_left fun h0 => BitVec.eq_of_toNat_eq h0)
  | frameData data => exact decode_encode_frameData (of_decide_eq_true hwf)
  | frameReset => exact decodeFrame_resetFrame_append []
  | tokenTransferComplete line =>
    simp only [Instr.wf, Bool.and_eq_true] at hwf
    obtain ⟨htok, -⟩ := hwf
    exact decodeLine_of_transferComplete htok
  | tokenResetComplete line =>
    simp only [Instr.wf, Bool.and_eq_true, Bool.not_eq_true'] at hwf
    obtain ⟨⟨htok, htransfer⟩, -⟩ := hwf
    exact decodeLine_of_resetComplete htransfer htok
  | tokenError line =>
    simp only [Instr.wf, Bool.and_eq_true, Bool.not_eq_true'] at hwf
    obtain ⟨⟨⟨htok, htransfer⟩, hreset⟩, -⟩ := hwf
    exact decodeLine_of_error htransfer hreset htok

/-! ### The written-out bytes -/

/-- Settles O4: the words of the table, evaluated. -/
theorem writtenOutWordsDecode : Obligations.WrittenOutWordsDecode := by
  unfold Obligations.WrittenOutWordsDecode
  decide

/-- Settles O7: the characters of the tokens, and the six containments, evaluated. -/
theorem noTokenContainsAnother : Obligations.NoTokenContainsAnother := by
  unfold Obligations.NoTokenContainsAnother
  decide

end Sys2Proof.Machine
end

section
/-! A step runs the instruction its record, frame or line decodes to; the records the interface refuses, and
the start of an operation. -/

namespace Sys2Proof.Machine

/-! ### The step of one record, frame or line -/

section DecodedStep
variable {s : State} {es : List Event}

/-- A command record that decodes is run (R80, R81). -/
theorem step_command_of_decode {c : Command} {i : Instr} (he : s.events = .command c :: es)
    (hd : decode (.host c) = .ok i) : step s = exec i { s with events := es } := by
  rw [step_of_event he]
  simp only [fetchEvent, fetchCommand, hd, finishFetch]

/-- A command record that does not decode is refused at the interface (R85, R86, R208). -/
theorem step_command_of_decode_error {c : Command} {e : DecodeError}
    (he : s.events = .command c :: es) (hd : decode (.host c) = .error e) :
    step s = .next (refuse .badOperandLength { s with events := es }) := by
  rw [step_of_event he]
  simp only [fetchEvent, fetchCommand, hd, finishFetch]

/-- The frame at the front of TX is run where the peer takes it (R91). -/
theorem step_peerFrame_of_decode {i : Instr} (he : s.events = .peerFrame :: es)
    (hd : decode (.wire s.tx) = .ok i) : step s = exec i { s with events := es } := by
  rw [step_of_event he]
  simp only [fetchEvent, fetchFrame, hd, finishFetch]

/-- In the wait an LF at the front of RX ends the line in LINEBUF (R165, R166). -/
theorem fetchFramer_of_lf {rest : ByteString} (hp : s.pState = .awaitingResponse)
    (hr : s.rx = lf :: rest) : fetchFramer s = fetchLine rest s := by
  simp only [fetchFramer, hp, hr, if_true]

/-- The line an LF ends is run, with the LF popped (R166). -/
theorem step_framer_of_decode {rest : ByteString} {i : Instr} (he : s.events = .framer :: es)
    (hp : s.pState = .awaitingResponse) (hr : s.rx = lf :: rest)
    (hd : decode (.line s.lineBuf) = .ok i) :
    step s = exec i { s with events := es, rx := rest } := by
  have hfetch : fetchEvent .framer { s with events := es } =
      fetchLine rest { s with events := es } := fetchFramer_of_lf hp hr
  rw [step_of_event he, hfetch]
  simp only [fetchLine, hd, finishFetch, popLf]

end DecodedStep

/-- Settles O8, by the three encoding spaces. -/
theorem stepRunsTheDecodedInstruction : Obligations.StepRunsTheDecodedInstruction :=
  ⟨fun _ _ _ _ => step_command_of_decode, fun _ _ _ => step_peerFrame_of_decode,
    fun _ _ _ _ => step_framer_of_decode⟩

/-! ### The records the block refuses by their encoding -/

/-- A reserved opcode is refused in every state (R83). -/
theorem exec_illegal (op : Byte) (s : State) :
    exec (.illegal op) s = .next (refuse .illegalCommand s) := rfl

/-- Settles O5: a reserved op byte decodes to the reserved row, which is refused. -/
theorem reservedOpcodeIsRefused : Obligations.ReservedOpcodeIsRefused := by
  refine ⟨fun s c es he hop => ?_, fun s op => exec_illegal op s⟩
  rw [step_command_of_decode he (decodeHost_of_op_reserved hop), exec_illegal]; rfl

/-- Settles O6: the record does not decode. -/
theorem otherLengthIsRefusedAtTheInterface : Obligations.OtherLengthIsRefusedAtTheInterface :=
  fun _ _ _ he hop hl => step_command_of_decode_error he (decodeHost_of_other_length hop hl)

/-! ### The start of an operation -/

/-- A block that is neither halted nor busy starts the operation (R161, R162). -/
theorem beginOperation_of_ready {s : State} (hv : s.catStatus = .valid) (hns : s.pState ≠ .sent)
    (hnw : s.pState ≠ .awaitingResponse) (op : POp) (frame : ByteString) (t : Nat) :
    beginOperation op frame t s = start op frame t s := by
  have hh : halted s = false := (halted_eq_false_iff s).mpr hv
  have hb : busy s = false := (busy_eq_false_iff s).mpr ⟨hns, hnw⟩
  simp [beginOperation, hh, hb]

/-- TRANSFER of 16 bytes passes the interface and begins its operation (R86, R161). -/
theorem exec_transfer_of_length {data : ByteString} (hl : data.length = 16) (timeout : Nat)
    (s : State) : exec (.transfer data timeout) s =
      .next (beginOperation .transfer (dataFrame data) timeout s) := by
  simp [exec, execTransfer, hl, Config.nBytes]

theorem exec_reset (timeout : Nat) (s : State) :
    exec (.reset timeout) s = .next (beginOperation .reset resetFrame timeout s) := rfl

/-- Settles O29: the ready block starts the operation with the DATA frame. -/
theorem transferStartsTheOperation : Obligations.TransferStartsTheOperation := by
  intro s data timeout hl hv hns hnw
  rw [exec_transfer_of_length hl, beginOperation_of_ready hv hns hnw]; rfl

/-- Settles O30: the ready block starts the operation with the RESET frame. -/
theorem resetCommandStartsTheOperation : Obligations.ResetCommandStartsTheOperation := by
  intro s timeout hv hns hnw
  rw [exec_reset, beginOperation_of_ready hv hns hnw]; rfl

/-! ### A complete line in the wait -/

section LineInTheWait
variable {s : State} {line : ByteString}

theorem lineDone_of_success (hp : s.pState = .awaitingResponse)
    (hc : classify s.params.tokenPriority s.pOp line = .success) :
    lineDone line s = finish .completedSuccess (clearLine s) := by
  simp only [lineDone, hp, hc]

theorem lineDone_of_error (hp : s.pState = .awaitingResponse)
    (hc : classify s.params.tokenPriority s.pOp line = .error) :
    lineDone line s = finish (.completedError line) (clearLine s) := by
  simp only [lineDone, hp, hc]

theorem lineDone_of_nonDecisive (hp : s.pState = .awaitingResponse)
    (hc : classify s.params.tokenPriority s.pOp line = .nonDecisive) :
    lineDone line s = quiet (clearLine s) := by
  simp only [lineDone, hp, hc]

theorem lineDone_of_not_awaiting (hp : s.pState ≠ .awaitingResponse) :
    lineDone line s = quiet s := by
  rcases lineDone_cases line s with ⟨_, e⟩ | ⟨hw, _⟩ | ⟨hw, _⟩ | ⟨hw, _⟩
  · exact e
  all_goals exact absurd hw hp

/-- The three token rows have one effect (R167). -/
theorem exec_token {i : Instr} (hi : i = .tokenTransferComplete line ∨
      i = .tokenResetComplete line ∨ i = .tokenError line) :
    exec i s = .next (lineDone line s) := by
  rcases hi with rfl | rfl | rfl <;> rfl

end LineInTheWait

/-- A line is ignored where it holds neither token (R94, R167). -/
theorem classify_nonDecisive_iff_substring (priority : TokenPriority) (op : POp)
    (line : ByteString) : classify priority op line = .nonDecisive ↔
      ¬ tokError <:+: line ∧ ¬ successToken op <:+: line := by
  rw [classify_nonDecisive_iff, ← containsToken_iff, ← containsToken_iff, Bool.not_eq_true,
    Bool.not_eq_true]

/-- Settles O38, by the class of the line. -/
theorem tokenRowsDecideTheOperation : Obligations.TokenRowsDecideTheOperation := by
  intro s line i hi
  rw [exec_token hi]
  refine ⟨fun hp => ⟨fun hs hpri => ?_, fun he hpri => ?_, fun hs he => ?_⟩, fun hp => ?_⟩
  · rw [lineDone_of_success hp ((classify_success_iff_substring _ _ _).mpr ⟨hs, hpri⟩)]; rfl
  · rw [lineDone_of_error hp ((classify_error_iff_substring _ _ _).mpr ⟨he, hpri⟩)]; rfl
  · rw [lineDone_of_nonDecisive hp ((classify_nonDecisive_iff_substring _ _ _).mpr ⟨he, hs⟩)]; rfl
  · rw [lineDone_of_not_awaiting hp]; rfl

end Sys2Proof.Machine
end

section
/-! ASSIGN's answer: it does not depend on the order of the pairs, and CONFIGURE goes on with its bytes. The
conversion of a duration to ticks. -/

namespace Sys2Proof.Machine

/-! ### The order of the pairs -/

/-- Distinct names give a field one input, in whatever order the pairs stand (R84, R121). -/
theorem inputFor_perm {values values' : FieldValues} (hp : values.Perm values')
    (hn : values.names.Nodup) (f : FieldSpec) : inputFor values f = inputFor values' f := by
  have hnames : values.names.Perm values'.names := hp.map Prod.fst
  refine inputFor_eq_of_inputIs hn ?_
  rcases inputIs_inputFor values' f with hmem | ⟨hnot, hzero⟩
  · exact .inl (hp.mem_iff.mpr hmem)
  · exact .inr ⟨fun hmem => hnot (hnames.mem_iff.mp hmem), hzero⟩

/-- ASSIGN's loop reads the operand through the inputs of the fields alone (R121, R123). -/
theorem assignFields_congr (mode : Mode) {values values' : FieldValues}
    (h : ∀ f, inputFor values f = inputFor values' f) :
    ∀ (fs : List FieldSpec) (reg : Reg) (warnings : List FieldName),
      assignFields mode values fs reg warnings = assignFields mode values' fs reg warnings
  | [], _, _ => rfl
  | f :: fs, reg, warnings => by
    simp only [assignFields, h f, assignFields_congr mode h fs]

/-- Settles O21: a permuted operand has the same names, and distinct names give the same inputs. -/
theorem pairOrderHasNoEffect : Obligations.PairOrderHasNoEffect := by
  intro s values values' hp
  have hnames : values.names.Nodup ↔ values'.names.Nodup := (hp.map Prod.fst).nodup_iff
  simp only [exec, execAssign]
  by_cases hn : values.names.Nodup
  · simp only [if_pos hn, if_pos (hnames.mp hn), assignFields_congr s.mode (inputFor_perm hp hn)]
  · simp only [if_neg hn, if_neg (mt hnames.mpr hn)]

/-! ### What ASSIGN answers -/

/-- ASSIGN is refused Halted, else refused DuplicateKey, else answers its bytes or its first error (R123,
R126, R210). -/
theorem exec_assign_cases (values : FieldValues) (s : State) :
    (halted s = true ∧ exec (.assign values) s = .next (refuse .halted s)) ∨
    (halted s = false ∧ ¬ values.names.Nodup ∧
      exec (.assign values) s = .next (refuse .duplicateKey s)) ∨
    (halted s = false ∧ values.names.Nodup ∧ ∃ reg warnings,
      assignFields s.mode values s.params.catalog 0 [] = .ok (reg, warnings) ∧
      exec (.assign values) s = .next (reply ⟨statusOk, .packed (bytesOfReg reg) warnings⟩ s)) ∨
    (halted s = false ∧ values.names.Nodup ∧ ∃ e,
      assignFields s.mode values s.params.catalog 0 [] = .error e ∧
      exec (.assign values) s = .next (reply (errorResult e) s)) := by
  simp only [exec, execAssign]
  by_cases hh : halted s = true
  · exact .inl ⟨hh, by simp [hh]⟩
  have hh : halted s = false := Bool.eq_false_of_not_eq_true hh
  by_cases hn : values.names.Nodup
  · cases hf : assignFields s.mode values s.params.catalog 0 [] with
    | ok packed => exact .inr <| .inr <| .inl ⟨hh, hn, packed.1, packed.2, rfl, by simp [hh, hn]⟩
    | error e => exact .inr <| .inr <| .inr ⟨hh, hn, e, rfl, by simp [hh, hn]⟩
  · exact .inr <| .inl ⟨hh, hn, by simp [hh, hn]⟩

/-- The bytes ASSIGN packs are 16 (R61, R123). -/
theorem packed_length_of_exec_assign {s t : State} {values : FieldValues} {bytes : ByteString}
    {warnings : List FieldName} {status : Byte} (h : exec (.assign values) s = .next t)
    (hr : t.response = some (.result ⟨status, .packed bytes warnings⟩)) : bytes.length = 16 := by
  rcases exec_assign_cases values s with ⟨_, e⟩ | ⟨_, _, e⟩ | ⟨_, _, reg, _, _, e⟩ | ⟨_, _, err, _, e⟩ <;>
    cases h.symm.trans e
  · cases hr
  · cases hr
  · cases hr; exact bytesOfReg_length reg
  · cases err <;> cases hr

/-! ### CONFIGURE -/

/-- CONFIGURE stops after any answer but ASSIGN's bytes with status 0x00 (R97). -/
theorem configureNext_eq_none {answer : Response} (timeout : Nat)
    (h : ∀ bytes warnings, answer ≠ .result ⟨statusOk, .packed bytes warnings⟩) :
    configureNext answer timeout = none := by
  unfold configureNext
  split
  case h_1 status bytes warnings => exact if_neg fun hs => h bytes warnings (by rw [hs])
  case h_2 => rfl

/-- Settles O55: the bytes ASSIGN packs pass TRANSFER's interface. -/
theorem configureTransfersWhatAssignPacked : Obligations.ConfigureTransfersWhatAssignPacked := by
  refine ⟨fun values => decodeHost_of_op_assign (c := configureFirst values) rfl,
    fun s values timeout t answer hstep hans =>
      ⟨fun bytes warnings heq => ?_, configureNext_eq_none timeout⟩⟩
  subst heq
  have hlen := packed_length_of_exec_assign hstep hans
  exact ⟨_, rfl, decode_encode_transfer hlen timeout⟩

/-! ### Durations -/

/-- A number of ticks bounds the conversion exactly when it is not shorter than the duration (R86). -/
theorem ticksOf_le_iff {pollInterval : Nat} (hpos : 0 < pollInterval) (duration n : Nat) :
    ticksOf pollInterval duration ≤ n ↔ duration ≤ n * pollInterval := by
  rw [ticksOf, Nat.div_le_iff_le_mul_add_pred hpos, Nat.add_le_add_iff_right, Nat.mul_comm]

/-- Settles O54: the conversion bounds itself, and every number of ticks that is not shorter. -/
theorem durationsRoundUpToTicks : Obligations.DurationsRoundUpToTicks := fun _ duration hpos =>
  ⟨(ticksOf_le_iff hpos duration _).mp le_rfl, fun n => (ticksOf_le_iff hpos duration n).mpr⟩

end Sys2Proof.Machine
end

section
/-! CHECK along a run, and the number of positions and fields of a catalog that passes it. -/

namespace Sys2Proof.Machine

/-! ### CHECK's answer is the verdict in CAT_STATUS -/

theorem checkResult_eq_valid_iff (c : CatStatus) : checkResult c = ⟨0x00, .valid⟩ ↔ c = .valid := by
  cases c <;> simp [checkResult, statusOk]

theorem checkResult_eq_invalid_iff (c : CatStatus) (report : Report) :
    checkResult c = ⟨0x03, .invalid report⟩ ↔ c = .invalid report := by
  cases c <;> simp [checkResult, statusCatalog]

/-- Every state of a run from a state that meets the invariant meets it too. -/
theorem StateInv.of_reaches {s t : State} (hi : StateInv s) (h : Reaches s t) : StateInv t :=
  h.invariant everyStepKeepsTheInvariant hi

/-- In a state that meets the invariant CHECK answers the verdict in CAT_STATUS (R39, R103). -/
theorem StateInv.exec_check {s : State} (hi : StateInv s) : exec .check s =
    .next { s with response := some (.result (checkResult s.catStatus)) } := by
  rw [Machine.exec_check, hi.catalog]

/-- A run from a state that meets the invariant keeps CAT_STATUS: the catalog is fixed (R35). -/
theorem StateInv.catStatus_of_reaches {s t : State} (hi : StateInv s) (h : Reaches s t) :
    t.catStatus = s.catStatus := by
  obtain ⟨hp, _⟩ := catalogAndModeAreFixed s t hi h
  rw [(hi.of_reaches h).catalog, hp, hi.catalog]

/-- Settles O13: CHECK answers CAT_STATUS at both ends of the run, and the run keeps it. -/
theorem checkIsConstantOverARun : Obligations.CheckIsConstantOverARun := by
  intro s t hi h
  refine ⟨checkResult t.catStatus, ?_, (hi.of_reaches h).exec_check,
    checkResult_eq_valid_iff _, checkResult_eq_invalid_iff _⟩
  rw [hi.exec_check, hi.catStatus_of_reaches h]

/-! ### The widths of a catalog count the positions it covers -/

theorem coverCount_cons (f : FieldSpec) (fs : List FieldSpec) (i : Nat) :
    coverCount (f :: fs) i = (if occupies f i then 1 else 0) + coverCount fs i := by
  cases h : occupies f i <;> simp [coverCount, h, Nat.add_comm]

/-- A field that meets W1 and W2 counts for as many positions as it is wide. -/
theorem card_filter_occupies {f : FieldSpec} (hw : 1 ≤ f.width)
    (hb : f.off ≤ 127 ∧ f.width ≤ f.off + 1) :
    ((Finset.range 128).filter fun i => occupies f i).card = f.width := by
  have hpos : ((Finset.range 128).filter fun i => occupies f i) =
      Finset.Ico (f.off + 1 - f.width) (f.off + 1) := by
    ext i
    rw [Finset.mem_filter, Finset.mem_range, Finset.mem_Ico, occupies_iff]
    omega
  rw [hpos, Nat.card_Ico]
  omega

/-- Under W1 and W2 the cover counts of all positions add up to the widths: both count the pairs of a
field and a position it counts for. -/
theorem sum_coverCount : ∀ {fs : List FieldSpec}, (∀ f ∈ fs, 1 ≤ f.width) →
    (∀ f ∈ fs, f.off ≤ 127 ∧ f.width ≤ f.off + 1) →
      ∑ i ∈ Finset.range 128, coverCount fs i = (fs.map FieldSpec.width).sum
  | [], _, _ => Finset.sum_const_zero
  | f :: fs, hw, hb => by
    obtain ⟨hwf, hw⟩ := List.forall_mem_cons.mp hw
    obtain ⟨hbf, hb⟩ := List.forall_mem_cons.mp hb
    simp only [coverCount_cons, Finset.sum_add_distrib, sum_coverCount hw hb, List.map_cons,
      List.sum_cons, ← Finset.card_filter, card_filter_occupies hwf hbf]

theorem ExactCover.coverCount_eq_one {catalog : List FieldSpec} (h : ExactCover catalog) {i : Nat}
    (hi : i < 128) : coverCount catalog i = 1 := by
  rw [coverCount_eq catalog h.width h.bounds, h.once i hi]

/-- An exact cover counts each of the 128 positions once (R104). -/
theorem ExactCover.sum_width {catalog : List FieldSpec} (h : ExactCover catalog) :
    (catalog.map FieldSpec.width).sum = 128 := by
  calc (catalog.map FieldSpec.width).sum
      = ∑ i ∈ Finset.range 128, coverCount catalog i := (sum_coverCount h.width h.bounds).symm
    _ = ∑ _i ∈ Finset.range 128, 1 :=
      Finset.sum_congr rfl fun _ hi => h.coverCount_eq_one (Finset.mem_range.mp hi)
    _ = 128 := by simp

/-- Settles O14: the widths sum to 128, and each is at least 1 (W1) and at most 7 (W5). -/
theorem widthsOfAValidCatalogSumTo128 : Obligations.WidthsOfAValidCatalogSumTo128 := by
  intro catalog hvalid
  have hcover := (checkCatalog_valid_iff catalog).mp hvalid
  have hsum := hcover.sum_width
  refine ⟨hsum, fun hw5 => ?_⟩
  have hle : (catalog.map FieldSpec.width).sum ≤ catalog.length * 7 := by
    simpa using List.sum_le_card_nsmul (catalog.map FieldSpec.width) 7 (by simpa using hw5)
  have hge : catalog.length * 1 ≤ (catalog.map FieldSpec.width).sum := by
    simpa using List.card_nsmul_le_sum (catalog.map FieldSpec.width) 1 (by simpa using hcover.width)
  omega

end Sys2Proof.Machine
end

section
/-! The register ASSIGN packs, bit by bit, and what ASSIGN and DECODE answer in terms of it (spec
41_pack_unpack R121 to R129). -/

namespace Sys2Proof.Machine

/-! ### The packed register -/

/-- The register ASSIGN's loop leaves when every field resolves, with field `f` at the value `v f`
(R123, R125); `assignFields_of_resolvesTo` ties it to the loop. -/
def packedReg (fs : List FieldSpec) (v : FieldSpec → Nat) : Reg :=
  fs.foldl (fun r f => insertField r f (v f)) 0

/-- Under an exact cover every position holds its bit of its owner's value (R124). -/
theorem ExactCover.packedReg_getLsbD {catalog : List FieldSpec} (h : ExactCover catalog)
    (v : FieldSpec → Nat) {f : FieldSpec} (hf : f ∈ catalog) {p : Nat} (hr : inFieldRange f p) :
    (packedReg catalog v).getLsbD p = (v f).testBit ((p : Int) - f.lo).toNat := by
  have hp : p < 128 := by
    obtain ⟨hoff, _⟩ := h.bounds f hf
    obtain ⟨_, hle⟩ := hr
    omega
  obtain ⟨o, _, _, unique⟩ := h.owner p hp
  refine foldl_insertField_getLsbD v p _ catalog 0 h.bounds (fun g hg hgr => ?_) ⟨f, hf, hr⟩
  rw [unique g hg hgr, unique f hf hr]

/-- Two registers that agree at every position in a field's range are equal, under an exact cover. -/
theorem ExactCover.reg_ext {catalog : List FieldSpec} (h : ExactCover catalog) {a b : Reg}
    (heq : ∀ f ∈ catalog, ∀ p, inFieldRange f p → a.getLsbD p = b.getLsbD p) : a = b := by
  refine BitVec.eq_of_getLsbD_eq fun p hp => ?_
  obtain ⟨f, hf, hr, _⟩ := h.owner p hp
  exact heq f hf p hr

/-- The bits of a field, counted from its offset down, hold its value most significant bit first (R124). -/
theorem ExactCover.regBit_packedReg {catalog : List FieldSpec} (h : ExactCover catalog)
    (v : FieldSpec → Nat) {f : FieldSpec} (hf : f ∈ catalog) {j : Nat} (hj : j < f.width) :
    regBit (bytesOfReg (packedReg catalog v)) (f.off - j) = (v f).testBit (f.width - 1 - j) := by
  obtain ⟨hoff, hwidth⟩ := h.bounds f hf
  have hr : inFieldRange f (f.off - j) := ⟨by omega, by omega⟩
  have hk : (((f.off - j : Nat) : Int) - f.lo).toNat = f.width - 1 - j := by
    unfold FieldSpec.lo; omega
  rw [regBit_bytesOfReg _ _ (by omega), h.packedReg_getLsbD v hf hr, hk]

/-- A value that fits its field is read back from the packed register (R124, R129). -/
theorem ExactCover.extractField_packedReg {catalog : List FieldSpec} (h : ExactCover catalog)
    {v : FieldSpec → Nat} {f : FieldSpec} (hf : f ∈ catalog) (hv : v f < 2 ^ f.width) :
    extractField (packedReg catalog v) f = v f := by
  obtain ⟨_, hwidth⟩ := h.bounds f hf
  refine Nat.eq_of_testBit_eq fun k => ?_
  rw [extractField_testBit]
  by_cases hk : k < f.width
  · have hr : inFieldRange f (f.off + 1 - f.width + k) := ⟨by omega, by omega⟩
    have hpos : (((f.off + 1 - f.width + k : Nat) : Int) - f.lo).toNat = k := by
      unfold FieldSpec.lo; omega
    rw [decide_eq_true hk, Bool.true_and, readBit_lo_add _ hwidth, h.packedReg_getLsbD v hf hr, hpos]
  · have hbig : v f < 2 ^ k := hv.trans_le (Nat.pow_le_pow_right (by omega) (by omega))
    rw [decide_eq_false hk, Bool.false_and, Nat.testBit_lt_two_pow hbig]

/-- A bit of a field's range is the bit of the extracted value (R129). -/
theorem extractField_testBit_of_inFieldRange (reg : Reg) {f : FieldSpec} (hw : f.width ≤ f.off + 1)
    {p : Nat} (hr : inFieldRange f p) :
    (extractField reg f).testBit ((p : Int) - f.lo).toNat = reg.getLsbD p := by
  obtain ⟨hlo, hoff⟩ := hr
  have hk : ((p : Int) - f.lo).toNat = p + f.width - (f.off + 1) := by unfold FieldSpec.lo; omega
  have hp : f.off + 1 - f.width + (p + f.width - (f.off + 1)) = p := by omega
  have hlt : p + f.width - (f.off + 1) < f.width := by omega
  rw [hk, extractField_testBit, decide_eq_true hlt, Bool.true_and, readBit_lo_add reg hw, hp]

/-- Every bit belongs to a field, so the extracted values pack to the same register (R131). -/
theorem ExactCover.packedReg_extractField {catalog : List FieldSpec} (h : ExactCover catalog)
    (reg : Reg) : packedReg catalog (extractField reg) = reg := by
  refine h.reg_ext fun f hf p hr => ?_
  obtain ⟨_, hwidth⟩ := h.bounds f hf
  rw [h.packedReg_getLsbD _ hf hr, extractField_testBit_of_inFieldRange reg hwidth hr]

/-- W1 to W4 do not depend on the order of the catalog (R34). -/
theorem ExactCover.perm {catalog catalog' : List FieldSpec} (h : ExactCover catalog)
    (hp : catalog.Perm catalog') : ExactCover catalog' where
  width := fun f hf => h.width f (hp.mem_iff.mpr hf)
  bounds := fun f hf => h.bounds f (hp.mem_iff.mpr hf)
  once := fun i hi => (hp.filter _).length_eq ▸ h.once i hi
  names := (hp.map FieldSpec.name).nodup_iff.mp h.names

/-- The ranges are disjoint, so the order of the inserts has no effect (R127). -/
theorem ExactCover.packedReg_perm {catalog catalog' : List FieldSpec} (h : ExactCover catalog)
    (hp : catalog.Perm catalog') (v : FieldSpec → Nat) :
    packedReg catalog' v = packedReg catalog v := by
  refine h.reg_ext fun f hf p hr => ?_
  rw [h.packedReg_getLsbD v hf hr, (h.perm hp).packedReg_getLsbD v (hp.mem_iff.mp hf) hr]

/-! ### The zero register -/

theorem writeBit_zero_false (p : Int) : writeBit 0 p false = 0 := by
  cases p with
  | ofNat i => simp [writeBit]
  | negSucc i => rfl

theorem insertField_zero_zero (f : FieldSpec) : insertField 0 f 0 = 0 := by
  unfold insertField
  induction List.range f.width with
  | nil => rfl
  | cons j js ih => rw [List.foldl_cons, Nat.zero_testBit, writeBit_zero_false, ih]

/-- Zeros pack to the zero register, whatever the catalog (R135). -/
theorem packedReg_zero (fs : List FieldSpec) : packedReg fs (fun _ => 0) = 0 := by
  unfold packedReg
  induction fs with
  | nil => rfl
  | cons f fs ih => rw [List.foldl_cons, insertField_zero_zero, ih]

theorem bytesOfReg_zero : bytesOfReg 0 = List.replicate 16 0 := by decide

/-! ### The inputs of the fields -/

/-- Distinct names give a field exactly one input (R84, R121). -/
theorem inputIs_iff {values : FieldValues} (hn : (values.map Prod.fst).Nodup) (f : FieldSpec)
    (x : FieldIn) : InputIs values f x ↔ inputFor values f = x :=
  ⟨inputFor_eq_of_inputIs hn, fun h => h ▸ inputIs_inputFor values f⟩

/-- A field is malformed exactly when the operand says so: an absent name is the value 0 (R121). -/
theorem inputFor_eq_malformed_iff {values : FieldValues} (hn : (values.map Prod.fst).Nodup)
    (f : FieldSpec) : inputFor values f = .malformed ↔ (f.name, FieldIn.malformed) ∈ values := by
  rw [← inputIs_iff hn]
  simp [InputIs]

/-- A mapping of one pair gives the other fields the value 0 (R121). -/
theorem inputFor_singleton (n : FieldName) (x : FieldIn) (f : FieldSpec) :
    inputFor [(n, x)] f = if f.name = n then x else .val 0 := by
  by_cases h : f.name = n
  · simp [inputFor, List.lookup, h]
  · simp [inputFor, List.lookup, beq_false_of_ne h, h]

/-! ### What ASSIGN and DECODE answer -/

/-- Every field of the list resolves under this mode, to the value and the warning that `w` says (R122). -/
def ResolvesTo (mode : Mode) (values : FieldValues) (fs : List FieldSpec)
    (w : FieldSpec → Nat × Bool) : Prop :=
  ∀ f ∈ fs, resolve f (inputFor values f) mode = .ok (w f)

/-- The names of the fields that warn, in catalog order (R123). -/
def warnedNames (fs : List FieldSpec) (w : FieldSpec → Nat × Bool) : List FieldName :=
  (fs.filter fun f => (w f).2).map FieldSpec.name

theorem warnedNames_of_no_warning {fs : List FieldSpec} {w : FieldSpec → Nat × Bool}
    (h : ∀ f ∈ fs, (w f).2 = false) : warnedNames fs w = [] := by
  rw [warnedNames, List.map_eq_nil_iff, List.filter_eq_nil_iff]
  exact fun f hf => by simp [h f hf]

/-- A resolved value fits its field (R122). -/
theorem ResolvesTo.lt {mode : Mode} {values : FieldValues} {fs : List FieldSpec}
    {w : FieldSpec → Nat × Bool} (h : ResolvesTo mode values fs w) {f : FieldSpec} (hf : f ∈ fs) :
    (w f).1 < 2 ^ f.width := by
  have hle := resolve_le_max (h f hf)
  have hpos := Nat.two_pow_pos f.width
  unfold FieldSpec.max at hle
  omega

/-- The loop over fields that all resolve packs their values and collects their warnings (R123). -/
theorem assignFields_of_resolvesTo {mode : Mode} {values : FieldValues} {fs : List FieldSpec}
    {w : FieldSpec → Nat × Bool} (h : ResolvesTo mode values fs w) :
    assignFields mode values fs 0 [] = .ok (packedReg fs fun f => (w f).1, warnedNames fs w) := by
  rw [assignFields_ok mode values w fs 0 [] h]
  rfl

/-- What ASSIGN answers for what its loop over the catalog came to (R123, R126). -/
def assignAnswer : Except PackError (Reg × List FieldName) → Result
  | .ok (reg, warnings) => ⟨statusOk, .packed (bytesOfReg reg) warnings⟩
  | .error e => errorResult e

section AcceptedAssign
variable {s : State} {values : FieldValues}

/-- ASSIGN past its two checks answers what the loop came to (R123). -/
theorem exec_assign_of_accepted (hv : s.catStatus = .valid) (hn : (values.map Prod.fst).Nodup) :
    exec (.assign values) s =
      .next (reply (assignAnswer (assignFields s.mode values s.params.catalog 0 [])) s) := by
  have hh := (halted_eq_false_iff s).mpr hv
  rcases exec_assign_cases values s with ⟨h, _⟩ | ⟨_, h, _⟩ | ⟨_, _, _, _, hok, e⟩ | ⟨_, _, _, herr, e⟩
  · cases hh.symm.trans h
  · exact absurd hn h
  · rw [e, hok]; rfl
  · rw [e, herr]; rfl

theorem exec_assign_of_resolvesTo (hv : s.catStatus = .valid) (hn : (values.map Prod.fst).Nodup)
    {w : FieldSpec → Nat × Bool} (hw : ResolvesTo s.mode values s.params.catalog w) :
    exec (.assign values) s = .next { s with response := some (.result ⟨0x00, .packed
      (bytesOfReg (packedReg s.params.catalog fun f => (w f).1))
      (warnedNames s.params.catalog w)⟩) } := by
  rw [exec_assign_of_accepted hv hn, assignFields_of_resolvesTo hw]
  rfl

/-- The first field that does not resolve decides the answer (R126). -/
theorem exec_assign_of_first_error (hv : s.catStatus = .valid) (hn : (values.map Prod.fst).Nodup)
    {pre post : List FieldSpec} {f : FieldSpec} {e : PackError}
    (hc : s.params.catalog = pre ++ f :: post)
    (hpre : ∀ g ∈ pre, ∃ r, resolve g (inputFor values g) s.mode = .ok r)
    (hf : resolve f (inputFor values f) s.mode = .error e) :
    exec (.assign values) s = .next (reply (errorResult e) s) := by
  rw [exec_assign_of_accepted hv hn, hc, assignFields_error s.mode values f e post hf pre 0 [] hpre]
  rfl

/-- Where ASSIGN answers bytes it passed its checks and every field resolved (R123, R126). -/
theorem resolvesTo_of_exec_assign {bytes : ByteString} {warnings : List FieldName}
    (h : exec (.assign values) s =
      .next { s with response := some (.result ⟨0x00, .packed bytes warnings⟩) }) :
    s.catStatus = .valid ∧ (values.map Prod.fst).Nodup ∧
      ∃ w, ResolvesTo s.mode values s.params.catalog w ∧
        bytes = bytesOfReg (packedReg s.params.catalog fun f => (w f).1) ∧
        warnings = warnedNames s.params.catalog w := by
  have answer : ∀ {t : State}, exec (.assign values) s = .next t →
      t.response = some (.result ⟨0x00, .packed bytes warnings⟩) := fun e => by
    cases h.symm.trans e; rfl
  rcases exec_assign_cases values s with ⟨_, e⟩ | ⟨_, _, e⟩ | ⟨hh, hn, reg, ws, hok, e⟩ | ⟨_, _, err, _, e⟩
  · cases answer e
  · cases answer e
  · cases answer e
    refine ⟨(halted_eq_false_iff s).mp hh, hn, ?_⟩
    rcases assignFields_cases s.mode values s.params.catalog with
      ⟨w, hw⟩ | ⟨pre, f, post, err, hc, hf, hpre⟩
    · rw [assignFields_of_resolvesTo hw] at hok
      cases hok
      exact ⟨w, hw, rfl, rfl⟩
    · rw [hc, assignFields_error s.mode values f err post hf pre 0 [] hpre] at hok
      cases hok
  · cases err <;> cases answer e

end AcceptedAssign

/-- DECODE of 16 bytes on a block that is not halted (R128). -/
theorem exec_decode_of_valid {s : State} {data : ByteString} (hv : s.catStatus = .valid)
    (hl : data.length = 16) : exec (.decode data) s =
      .next (reply ⟨statusOk, .fields (decodeFields s.params.catalog (regOfBytes data))⟩ s) := by
  simp [exec, execDecode, hl, Config.nBytes, (halted_eq_false_iff s).mpr hv]

/-- A property of every field DECODE lists, in catalog order, is one of every extracted value (R128). -/
theorem forall₂_decodeFields_iff {R : FieldSpec → FieldName × Nat → Prop} (fs : List FieldSpec)
    (reg : Reg) : List.Forall₂ R fs (decodeFields fs reg) ↔
      ∀ f ∈ fs, R f (f.name, extractField reg f) := by
  rw [decodeFields, List.forall₂_map_right_iff, List.forall₂_same]

end Sys2Proof.Machine
end

section
/-! The order of a command's checks, and what ASSIGN packs under Clamp and under Strict (spec
41_pack_unpack R121 to R126, R132, R135, 60_exceptions R210). -/

namespace Sys2Proof.Machine

/-! ### The order of the checks -/

theorem exec_assign_of_halted {s : State} (hc : s.catStatus ≠ .valid) (values : FieldValues) :
    exec (.assign values) s = .next (refuse .halted s) := by
  simp [exec, execAssign, (halted_eq_true_iff s).mpr hc]

theorem exec_assign_of_duplicateKey {s : State} (hv : s.catStatus = .valid) {values : FieldValues}
    (hn : ¬ (values.map Prod.fst).Nodup) :
    exec (.assign values) s = .next (refuse .duplicateKey s) := by
  simp [exec, execAssign, (halted_eq_false_iff s).mpr hv, hn]

theorem exec_decode_of_halted {s : State} (hc : s.catStatus ≠ .valid) {data : ByteString}
    (hl : data.length = 16) : exec (.decode data) s = .next (refuse .halted s) := by
  simp [exec, execDecode, hl, Config.nBytes, (halted_eq_true_iff s).mpr hc]

theorem beginOperation_of_halted {s : State} (hc : s.catStatus ≠ .valid) (op : POp)
    (frame : ByteString) (t : Nat) : beginOperation op frame t s = refuse .halted s := by
  simp [beginOperation, (halted_eq_true_iff s).mpr hc]

theorem beginOperation_of_busy {s : State} (hv : s.catStatus = .valid)
    (hb : s.pState = .sent ∨ s.pState = .awaitingResponse) (op : POp) (frame : ByteString) (t : Nat) :
    beginOperation op frame t s = refuse .busy s := by
  simp [beginOperation, (halted_eq_false_iff s).mpr hv, (busy_eq_true_iff s).mpr hb]

/-- Settles O24, command by command. -/
theorem checksAreTakenInOrder : Obligations.ChecksAreTakenInOrder := by
  refine ⟨fun s values => ⟨fun hc => exec_assign_of_halted hc values,
      fun hv hn => exec_assign_of_duplicateKey hv hn⟩,
    fun s data timeout hl => ⟨fun hc => ⟨exec_decode_of_halted hc hl, ?_, ?_⟩,
      fun hv hb => ⟨?_, ?_⟩⟩⟩
  · rw [exec_transfer_of_length hl, beginOperation_of_halted hc]; rfl
  · rw [exec_reset, beginOperation_of_halted hc]; rfl
  · rw [exec_transfer_of_length hl, beginOperation_of_busy hv hb]; rfl
  · rw [exec_reset, beginOperation_of_busy hv hb]; rfl

/-! ### ASSIGN under Clamp -/

/-- What an input is under Clamp: the low bits of a value, and 0 with a warning for a malformed input
(R122). -/
def clamped (f : FieldSpec) : FieldIn → Nat × Bool
  | .val n => (n % 2 ^ f.width, false)
  | .malformed => (0, true)

theorem resolve_clamp (f : FieldSpec) (x : FieldIn) : resolve f x .clamp = .ok (clamped f x) := by
  cases x with
  | val n => exact resolve_clamp_val f n
  | malformed => exact resolve_clamp_malformed f

/-- Under Clamp every field resolves (R122). -/
theorem resolvesTo_clamp (values : FieldValues) (fs : List FieldSpec) :
    ResolvesTo .clamp values fs fun f => clamped f (inputFor values f) :=
  fun f _ => resolve_clamp f (inputFor values f)

@[simp] theorem clamped_warns_iff (f : FieldSpec) (x : FieldIn) :
    (clamped f x).2 = true ↔ x = .malformed := by
  cases x <;> simp [clamped]

/-- Clamp warns of the fields the operand gives as malformed (R122, R209). -/
theorem warnedNames_clamp {values : FieldValues} (hn : (values.map Prod.fst).Nodup)
    (fs : List FieldSpec) : warnedNames fs (fun f => clamped f (inputFor values f)) =
      (fs.filter fun f => (f.name, FieldIn.malformed) ∈ values).map FieldSpec.name := by
  unfold warnedNames
  congr 1
  refine List.filter_congr fun f _ => ?_
  rw [Bool.eq_iff_iff, clamped_warns_iff, inputFor_eq_malformed_iff hn, decide_eq_true_iff]

/-- Settles O16: every field resolves to its clamped input. -/
theorem assignUnderClampPacksTheLowBits : Obligations.AssignUnderClampPacksTheLowBits := by
  rintro s values ⟨hv, hcover⟩ hm hn
  have hw : ResolvesTo s.mode values s.params.catalog fun f => clamped f (inputFor values f) :=
    hm ▸ resolvesTo_clamp values s.params.catalog
  have hexec := exec_assign_of_resolvesTo hv hn hw
  rw [warnedNames_clamp hn] at hexec
  refine ⟨_, hexec, bytesOfReg_length _, fun f hf j hj => ⟨fun n hi => ?_, fun hi => ?_⟩⟩
  · have hlow : f.width - 1 - j < f.width := by omega
    rw [hcover.regBit_packedReg _ hf hj, inputFor_eq_of_inputIs hn hi]
    simp [clamped, Nat.testBit_mod_two_pow, hlow]
  · rw [hcover.regBit_packedReg _ hf hj, inputFor_eq_of_inputIs hn hi]
    exact Nat.zero_testBit _

/-! ### ASSIGN under Strict -/

/-- An input that fits its field resolves to itself, with no warning, in both modes (R122). -/
theorem resolve_of_inputIs {values : FieldValues} (hn : (values.map Prod.fst).Nodup) {f : FieldSpec}
    {n : Nat} (hi : InputIs values f (.val n)) (hle : n ≤ 2 ^ f.width - 1) (mode : Mode) :
    resolve f (inputFor values f) mode = .ok (n, false) := by
  rw [inputFor_eq_of_inputIs hn hi]
  exact resolve_val_of_le mode hle

/-- Settles O17: every field resolves to its own input. -/
theorem assignUnderStrictPacksFittingInputs : Obligations.AssignUnderStrictPacksFittingInputs := by
  rintro s values ⟨hv, hcover⟩ hm hn hfit
  choose! v hinput hle using hfit
  have hw : ResolvesTo s.mode values s.params.catalog fun f => (v f, false) :=
    fun f hf => resolve_of_inputIs hn (hinput f hf) (hle f hf) s.mode
  have hexec := exec_assign_of_resolvesTo hv hn hw
  rw [warnedNames_of_no_warning fun _ _ => rfl] at hexec
  refine ⟨_, hexec, bytesOfReg_length _, fun f hf j hj n hi => ?_⟩
  have hvn : FieldIn.val (v f) = .val n :=
    (inputFor_eq_of_inputIs hn (hinput f hf)).symm.trans (inputFor_eq_of_inputIs hn hi)
  rw [hcover.regBit_packedReg _ hf hj, FieldIn.val.inj hvn]

/-- Settles O18: the fields before the failing one resolve, and it does not. -/
theorem assignUnderStrictReportsTheFirstFailingField :
    Obligations.AssignUnderStrictReportsTheFirstFailingField := by
  intro s values pre f post hv hm hn hc hpre
  have hpre' : ∀ g ∈ pre, ∃ r, resolve g (inputFor values g) s.mode = .ok r := fun g hg => by
    obtain ⟨n, hi, hle⟩ := hpre g hg
    exact ⟨_, resolve_of_inputIs hn hi hle s.mode⟩
  refine ⟨fun n hi hlt => ?_, fun hi => ?_⟩
  · refine exec_assign_of_first_error hv hn hc hpre' (e := .outOfRange f.name n f.max) ?_
    rw [hm, inputFor_eq_of_inputIs hn hi]
    exact resolve_strict_val_of_lt hlt
  · refine exec_assign_of_first_error hv hn hc hpre' (e := .malformed f.name) ?_
    rw [hm, inputFor_eq_of_inputIs hn hi]
    exact resolve_strict_malformed f

/-! ### Zero bytes -/

/-- ASSIGN of fields that all resolve to 0 with no warning answers 16 zero bytes. -/
theorem exec_assign_of_resolves_zero {s : State} {values : FieldValues} (hv : s.catStatus = .valid)
    (hn : (values.map Prod.fst).Nodup)
    (hw : ResolvesTo s.mode values s.params.catalog fun _ => (0, false)) :
    exec (.assign values) s =
      .next { s with response := some (.result ⟨0x00, .packed (List.replicate 16 0) []⟩) } := by
  rw [exec_assign_of_resolvesTo hv hn hw, packedReg_zero, bytesOfReg_zero,
    warnedNames_of_no_warning fun _ _ => rfl]

/-- Settles O19: every field has the input 0. -/
theorem emptyMappingGivesZeroBytes : Obligations.EmptyMappingGivesZeroBytes := fun s hv =>
  exec_assign_of_resolves_zero hv List.nodup_nil fun f _ => resolve_val_of_le s.mode (Nat.zero_le f.max)

/-- Settles O20: `2^width` has no bit below `width`, and no other field has the name (W4). -/
theorem overflowByOneWrapsOrFails : Obligations.OverflowByOneWrapsOrFails := by
  rintro s f ⟨hv, hcover⟩ hf
  have hpow : 2 ^ f.width - 1 + 1 = 2 ^ f.width := Nat.sub_add_cancel (Nat.two_pow_pos f.width)
  have hn : ([(f.name, FieldIn.val (2 ^ f.width))].map Prod.fst).Nodup := List.nodup_singleton _
  rw [hpow]
  refine ⟨fun hm => exec_assign_of_resolves_zero hv hn fun g hg => ?_, fun hm => ?_⟩
  · rw [hm, inputFor_singleton]
    by_cases h : g.name = f.name
    · obtain rfl : g = f := List.inj_on_of_nodup_map hcover.names hg hf h
      simp
    · simp [h]
  · obtain ⟨pre, post, hc⟩ := List.append_of_mem hf
    have hnames := hcover.names
    rw [hc, List.map_append, List.map_cons] at hnames
    have hother : ∀ g ∈ pre, g.name ≠ f.name := fun g hg he =>
      List.disjoint_of_nodup_append hnames (List.mem_map_of_mem hg) (he ▸ List.mem_cons_self)
    obtain ⟨houtOfRange, _⟩ := assignUnderStrictReportsTheFirstFailingField s
      [(f.name, .val (2 ^ f.width))] pre f post hv hm hn hc
      fun g hg => ⟨0, .inr ⟨by simpa using hother g hg, rfl⟩, Nat.zero_le _⟩
    exact houtOfRange _ (.inl List.mem_cons_self) (by omega)

end Sys2Proof.Machine
end

section
/-! The laws of ASSIGN and DECODE: the catalog's order, the independence of fields and the round trips (spec
41_pack_unpack R127 to R133). -/

namespace Sys2Proof.Machine

/-! ### The order of the catalog -/

/-- Settles O22: the same fields resolve to the same values, in any order. -/
theorem catalogOrderDoesNotAffectTheBytes : Obligations.CatalogOrderDoesNotAffectTheBytes := by
  rintro s values catalog' bytes warnings ⟨hv, hcover⟩ hp hexec
  obtain ⟨_, hn, w, hw, rfl, rfl⟩ := resolvesTo_of_exec_assign hexec
  have hw' : ResolvesTo s.mode values catalog' w := fun f hf => hw f (hp.mem_iff.mpr hf)
  refine ⟨warnedNames catalog' w, (hp.filter _).map _, ?_⟩
  rw [← hcover.packedReg_perm hp]
  exact exec_assign_of_resolvesTo (s := { s with params := { s.params with catalog := catalog' } })
    hv hn hw'

/-! ### The independence of fields -/

/-- A bit of an OR over a list is set exactly where one of its members sets it. -/
theorem testBit_foldl_or (g : FieldSpec → Nat) (p : Nat) : ∀ (fs : List FieldSpec) (acc : Nat),
    ((fs.map g).foldl (· ||| ·) acc).testBit p = (acc.testBit p || fs.any fun f => (g f).testBit p)
  | [], acc => by simp
  | f :: fs, acc => by
    rw [List.map_cons, List.foldl_cons, testBit_foldl_or g p fs, Nat.testBit_or, List.any_cons,
      Bool.or_assoc]

/-- A fitting value shifted to its field's range sets bits of that range only (R133). -/
theorem testBit_shiftLeft_lo {f : FieldSpec} (hw : f.width ≤ f.off + 1) {v : Nat}
    (hv : v < 2 ^ f.width) (p : Nat) : (v <<< f.lo.toNat).testBit p = true ↔
      inFieldRange f p ∧ v.testBit ((p : Int) - f.lo).toNat = true := by
  have hlo : f.lo.toNat = f.off + 1 - f.width := by rw [lo_eq hw, Int.toNat_natCast]
  have hk : ((p : Int) - f.lo).toNat = p - f.lo.toNat := by rw [hlo, lo_eq hw]; omega
  rw [Nat.testBit_shiftLeft, Bool.and_eq_true, decide_eq_true_iff, hk]
  refine and_congr_left fun hbit => ⟨fun hge => ?_, fun ⟨hge, _⟩ => by omega⟩
  have hlt : p - f.lo.toNat < f.width := by
    by_contra hc
    have hbig : v < 2 ^ (p - f.lo.toNat) := hv.trans_le (Nat.pow_le_pow_right (by omega) (by omega))
    rw [Nat.testBit_lt_two_pow hbig] at hbit
    cases hbit
  exact ⟨by omega, by omega⟩

/-- The packed register is the OR of the values shifted to their ranges (R133). -/
theorem ExactCover.packedReg_getLsbD_eq_or {catalog : List FieldSpec} (h : ExactCover catalog)
    {v : FieldSpec → Nat} (hv : ∀ f ∈ catalog, v f < 2 ^ f.width) {p : Nat} (hp : p < 128) :
    (packedReg catalog v).getLsbD p =
      ((catalog.map fun f => v f <<< f.lo.toNat).foldl (· ||| ·) 0).testBit p := by
  obtain ⟨o, ho, hr, unique⟩ := h.owner p hp
  have hset : ∀ f ∈ catalog, (v f <<< f.lo.toNat).testBit p = true ↔
      inFieldRange f p ∧ (v f).testBit ((p : Int) - f.lo).toNat = true := fun f hf =>
    testBit_shiftLeft_lo (h.bounds f hf).2 (hv f hf) p
  rw [testBit_foldl_or, Nat.zero_testBit, Bool.false_or, h.packedReg_getLsbD v ho hr, Bool.eq_iff_iff,
    List.any_eq_true]
  constructor
  · exact fun hbit => ⟨o, ho, (hset o ho).mpr ⟨hr, hbit⟩⟩
  · rintro ⟨f, hf, hbit⟩
    obtain ⟨hfr, hbit⟩ := (hset f hf).mp hbit
    exact unique f hf hfr ▸ hbit

/-- Settles O23: a position takes its bit from its owner alone. -/
theorem fieldsAreIndependent : Obligations.FieldsAreIndependent := by
  constructor
  · rintro s values v ⟨hv, hcover⟩ hn hres
    choose! warn hwarn using hres
    have hw : ResolvesTo s.mode values s.params.catalog fun f => (v f, warn f) := hwarn
    refine ⟨_, _, exec_assign_of_resolvesTo hv hn hw, fun p hp => ?_⟩
    rw [regBit_bytesOfReg _ p hp, hcover.packedReg_getLsbD_eq_or (fun f hf => hw.lt hf) hp]
  · rintro s values values' f bytes bytes' warnings warnings' ⟨_, hcover⟩ _ hsame hexec hexec' p hp
      hout
    obtain ⟨_, _, w, hw, rfl, _⟩ := resolvesTo_of_exec_assign hexec
    obtain ⟨_, _, w', hw', rfl, _⟩ := resolvesTo_of_exec_assign hexec'
    obtain ⟨o, ho, hr, _⟩ := hcover.owner p hp
    have hne : o ≠ f := fun he => hout ((inFieldRange_iff_lo f p).mp (he ▸ hr))
    have hwo : w o = w' o := by
      have heq := (hw o ho).symm.trans (hsame o ho hne ▸ hw' o ho)
      exact Except.ok.inj heq
    rw [regBit_bytesOfReg _ p hp, regBit_bytesOfReg _ p hp, hcover.packedReg_getLsbD _ ho hr,
      hcover.packedReg_getLsbD _ ho hr, hwo]

/-! ### DECODE and the round trips -/

/-- Settles O25: each field is extracted from the register of the 16 bytes. -/
theorem decodeReadsEveryField : Obligations.DecodeReadsEveryField := by
  intro s data hv hl
  refine ⟨_, exec_decode_of_valid hv hl, (forall₂_decodeFields_iff _ _).mpr fun f _ =>
    ⟨rfl, Nat.le_sub_one_of_lt (extractField_lt _ f), fun hoff hw j hj => ?_⟩⟩
  have hpos : f.off + 1 - f.width + (f.width - 1 - j) = f.off - j := by omega
  have hlt : f.width - 1 - j < f.width := by omega
  rw [extractField_testBit, decide_eq_true hlt, Bool.true_and, readBit_lo_add _ hw, hpos,
    regOfBytes_getLsbD data _ hl (by omega)]

/-- Settles O26: the packed register is read back, and every resolved value fits its field. -/
theorem packThenUnpackGivesTheResolvedValues : Obligations.PackThenUnpackGivesTheResolvedValues := by
  rintro s values bytes warnings ⟨hv, hcover⟩ hn hexec
  obtain ⟨_, _, w, hw, rfl, _⟩ := resolvesTo_of_exec_assign hexec
  refine ⟨_, exec_decode_of_valid hv (bytesOfReg_length _),
    (forall₂_decodeFields_iff _ _).mpr fun f hf => ?_⟩
  rw [regOfBytes_bytesOfReg, hcover.extractField_packedReg hf (hw.lt hf)]
  refine ⟨rfl, ⟨(w f).2, hw f hf⟩, fun n hi hle => ?_⟩
  have heq := (hw f hf).symm.trans (resolve_of_inputIs hn hi hle s.mode)
  exact congrArg Prod.fst (Except.ok.inj heq)

/-- Settles O27: every bit of the data belongs to a field, and an extracted value fits its field. -/
theorem unpackThenPackGivesTheSameBytes : Obligations.UnpackThenPackGivesTheSameBytes := by
  rintro s data ⟨hv, hcover⟩ hl
  refine ⟨_, exec_decode_of_valid hv hl, ?_⟩
  generalize hvalues : (decodeFields s.params.catalog (regOfBytes data)).map
    (fun p => (p.1, FieldIn.val p.2)) = values
  have hmap : values = s.params.catalog.map fun f =>
      (f.name, FieldIn.val (extractField (regOfBytes data) f)) := by
    rw [← hvalues, decodeFields, List.map_map]; rfl
  have hn : (values.map Prod.fst).Nodup := by
    rw [hmap, List.map_map]; exact hcover.names
  have hw : ResolvesTo s.mode values s.params.catalog
      fun f => (extractField (regOfBytes data) f, false) := fun f hf =>
    resolve_of_inputIs hn (.inl (hmap ▸ List.mem_map_of_mem hf))
      (Nat.le_sub_one_of_lt (extractField_lt _ f)) s.mode
  rw [exec_assign_of_resolvesTo hv hn hw, hcover.packedReg_extractField, bytesOfReg_regOfBytes data hl,
    warnedNames_of_no_warning fun _ _ => rfl]

end Sys2Proof.Machine
end

section
/-! The framer's own steps, event by event (spec 42_protocol R160, R164 to R168, R170, R171), and
that every step has a next state. -/

namespace Sys2Proof.Machine

/-! ### Every step has a next state -/

theorem exec_has_next (i : Instr) (s : State) : ∃ t, exec i s = .next t := by
  cases i <;> exact ⟨_, rfl⟩

/-- Settles O10: what is fetched is run, and every instruction has a next state. -/
theorem everyStepHasANextState : Obligations.EveryStepHasANextState := by
  intro s
  rw [step_eq]
  cases fetch s with
  | run i s' => exact exec_has_next i s'
  | done s' => exact ⟨s', rfl⟩

theorem step_of_events_nil {s : State} (he : s.events = []) :
    step s = finishFetch (fetchFramer s) := by
  rw [step_eq]; simp only [fetch, he]

/-- Settles O9: a scheduled framer step is fetched in the state with the empty schedule. -/
theorem emptyScheduleLetsTheFramerGoOn : Obligations.EmptyScheduleLetsTheFramerGoOn := by
  intro s t he
  have hsched : step { s with events := [.framer] } =
      finishFetch (fetchFramer { s with events := [] }) :=
    step_of_event (s := { s with events := [.framer] }) rfl
  have hs : ({ s with events := [] } : State) = s := by rw [← he]
  rw [step_of_events_nil he, hsched, hs]

/-! ### A record that starts an operation -/

/-- A record of TRANSFER or RESET comes to the checks and the start the two share (R161, R162). -/
theorem step_command_of_starts {s : State} {c : Command} {es : List Event} {op : POp}
    {frame : ByteString} (he : s.events = .command c :: es) (hs : Starts c op frame) :
    step s = .next (beginOperation op frame c.timeout { s with events := es }) := by
  cases hs with
  | data hop hl =>
    have hd : decode (.host c) = .ok (.transfer c.data c.timeout) :=
      (decodeHost_of_op_transfer hop).trans (if_pos hl)
    rw [step_command_of_decode he hd, exec_transfer_of_length hl]
  | reset hop =>
    rw [step_command_of_decode he (decodeHost_of_op_reset hop), exec_reset]

theorem step_command_of_ready {s : State} {c : Command} {es : List Event} {op : POp}
    {frame : ByteString} (he : s.events = .command c :: es) (hs : Starts c op frame)
    (hv : s.catStatus = .valid) (hns : s.pState ≠ .sent) (hnw : s.pState ≠ .awaitingResponse) :
    step s = .next (start op frame c.timeout { s with events := es }) := by
  rw [step_command_of_starts he hs]
  exact congrArg _ (beginOperation_of_ready (s := { s with events := es }) hv hns hnw op frame _)

/-- Settles O31: the second operation reaches the check for Busy. -/
theorem secondOperationIsRefusedBusy : Obligations.SecondOperationIsRefusedBusy := by
  intro s c es he hop hv hb
  obtain ⟨op, frame, hs⟩ : ∃ op frame, Starts c op frame := by
    rcases hop with ⟨hop, hl⟩ | hop
    · exact ⟨_, _, .data hop hl⟩
    · exact ⟨_, _, .reset hop⟩
  rw [step_command_of_starts he hs]
  exact congrArg _ (beginOperation_of_busy (s := { s with events := es }) hv hb op frame _)

/-! ### The framer's step in Sent, at a byte, at an LF, and where none is enabled -/

theorem fetchFramer_of_sent {s : State} (hp : s.pState = .sent) :
    fetchFramer s = .done (enterWait s) := by
  simp only [fetchFramer, hp]

theorem fetchFramer_of_byte {s : State} {b : Byte} {rest : ByteString}
    (hp : s.pState = .awaitingResponse) (hr : s.rx = b :: rest) (hb : b ≠ lf) :
    fetchFramer s = .done (takeByte b rest s) := by
  simp only [fetchFramer, hp, hr, if_neg hb]

theorem fetchFramer_of_not_running {s : State} (hns : s.pState ≠ .sent)
    (hnw : s.pState ≠ .awaitingResponse) : fetchFramer s = .done (quiet s) := by
  unfold fetchFramer
  split
  case h_1 hp => exact absurd hp hns
  case h_2 hp _ => exact absurd hp hnw
  case h_3 => rfl

theorem fetchFramer_of_rx_nil {s : State} (hp : s.pState = .awaitingResponse) (hr : s.rx = []) :
    fetchFramer s = .done (quiet s) := by
  simp only [fetchFramer, hp, hr]

section FramerStep
variable {s : State} {es : List Event} {rest : ByteString}

theorem step_framer_of_done {t : State} (he : s.events = .framer :: es)
    (hf : fetchFramer { s with events := es } = .done t) : step s = .next t := by
  rw [step_of_event he]
  simp only [fetchEvent, hf, finishFetch]

theorem step_framer_of_byte {b : Byte} (he : s.events = .framer :: es)
    (hp : s.pState = .awaitingResponse) (hr : s.rx = b :: rest) (hb : b ≠ lf) :
    step s = .next (takeByte b rest { s with events := es }) :=
  step_framer_of_done he (fetchFramer_of_byte hp hr hb)

/-- The LF that ends a line is popped and the line in LINEBUF is done (R165, R166). -/
theorem step_framer_of_lf (he : s.events = .framer :: es) (hp : s.pState = .awaitingResponse)
    (hr : s.rx = lf :: rest) :
    step s = .next (lineDone s.lineBuf { s with events := es, rx := rest }) := by
  have hf : fetchEvent .framer { s with events := es } = fetchLine rest { s with events := es } :=
    fetchFramer_of_lf hp hr
  rw [step_of_event he, hf]
  exact finishFetch_fetchLine rest { s with events := es } hp

end FramerStep

/-- Settles O35: the step enters the wait. -/
theorem sentEntersTheWait : Obligations.SentEntersTheWait :=
  fun _ _ hp he => step_framer_of_done he (fetchFramer_of_sent hp)

theorem takeByte_of_room {s : State} (h : s.params.lineBufCap ≠ some s.lineBuf.length) (b : Byte)
    (rest : ByteString) :
    takeByte b rest s = { s with rx := rest, lineBuf := s.lineBuf ++ [b], response := none } := by
  rcases takeByte_cases b rest s with ⟨hfull, _⟩ | ⟨_, e⟩
  · exact absurd hfull h
  · exact e

theorem takeByte_of_full {s : State} (h : s.params.lineBufCap = some s.lineBuf.length) (b : Byte)
    (rest : ByteString) : takeByte b rest s = refuse .lineOverflow s := by
  rcases takeByte_cases b rest s with ⟨_, e⟩ | ⟨hroom, _⟩
  · exact e
  · exact absurd h hroom

/-- Settles O36, by whether LINEBUF has room. -/
theorem byteJoinsTheLineOrOverflows : Obligations.ByteJoinsTheLineOrOverflows := by
  intro s b rest es hp he hr hb
  rw [step_framer_of_byte he hp hr hb]
  exact ⟨fun hroom => congrArg _ (takeByte_of_room (s := { s with events := es }) hroom b rest),
    fun hfull => congrArg _ (takeByte_of_full (s := { s with events := es }) hfull b rest)⟩

/-- Settles O37, by the class of the line in LINEBUF. -/
theorem completeLineIsClassified : Obligations.CompleteLineIsClassified := by
  intro s rest es hp he hr
  rw [step_framer_of_lf he hp hr]
  refine ⟨fun hs hpri => congrArg _ ?_, fun herr hpri => congrArg _ ?_,
    fun hs herr => congrArg _ ?_⟩
  · exact lineDone_of_success hp ((classify_success_iff_substring _ _ _).mpr ⟨hs, hpri⟩)
  · exact lineDone_of_error hp ((classify_error_iff_substring _ _ _).mpr ⟨herr, hpri⟩)
  · exact lineDone_of_nonDecisive hp ((classify_nonDecisive_iff_substring _ _ _).mpr ⟨herr, hs⟩)

/-! ### The tick -/

section Tick
variable {s : State}

theorem step_tick {es : List Event} (he : s.events = .tick :: es) :
    step s = .next (tick { s with events := es }) := step_of_event he

theorem tick_before_deadline (hp : s.pState = .awaitingResponse) (h : s.elapsed + 1 < s.timeoutT) :
    tick s = { s with elapsed := s.elapsed + 1, response := none } := by
  rcases tick_cases s with ⟨hn, _⟩ | ⟨_, hd, _⟩ | ⟨_, _, e⟩
  · exact absurd hp hn
  · omega
  · exact e

theorem tick_at_deadline (hp : s.pState = .awaitingResponse) (h : s.timeoutT ≤ s.elapsed + 1) :
    tick s = finish .timedOut { s with elapsed := s.elapsed + 1 } := by
  rcases tick_cases s with ⟨hn, _⟩ | ⟨_, _, e⟩ | ⟨_, hd, _⟩
  · exact absurd hp hn
  · exact e
  · omega

theorem tick_of_not_awaiting (hp : s.pState ≠ .awaitingResponse) : tick s = quiet s := by
  rcases tick_cases s with ⟨_, e⟩ | ⟨hw, _⟩ | ⟨hw, _⟩
  · exact e
  all_goals exact absurd hw hp

end Tick

/-- Settles O39, by whether the tick reaches the deadline. -/
theorem tickCountsTowardsTheTimeout : Obligations.TickCountsTowardsTheTimeout := by
  intro s es hp he
  rw [step_tick he]
  exact ⟨fun h => congrArg _ (tick_before_deadline hp h),
    fun h => congrArg _ (tick_at_deadline hp h)⟩

/-- Settles O40: the tick finds no wait, and the framer no step. -/
theorem idleTickAndDisabledFramerChangeNothing :
    Obligations.IdleTickAndDisabledFramerChangeNothing := by
  refine ⟨fun s es hp he => ?_, fun s es hns hnw he => ?_, fun s es hp hr he => ?_⟩
  · rw [step_tick he]; exact congrArg _ (tick_of_not_awaiting hp)
  · exact step_framer_of_done he (fetchFramer_of_not_running hns hnw)
  · exact step_framer_of_done he (fetchFramer_of_rx_nil hp hr)

end Sys2Proof.Machine
end

section
/-! Runs through an operation: its start, the bytes of a line in arrival order, and the ticks up to
the deadline (spec 42_protocol R161 to R169, R176, R177). -/

namespace Sys2Proof.Machine

/-- A run goes on from where its first steps end. -/
theorem run_add {k : Nat} {s t : State} (m : Nat) (h : Host.Core.run Sys2Proof.core k s = .next t) :
    Host.Core.run Sys2Proof.core (k + m) s = Host.Core.run Sys2Proof.core m t := by
  induction k generalizing s with
  | zero =>
    cases h
    rw [Nat.zero_add]
  | succ k ih =>
    obtain ⟨u, hu⟩ := everyStepHasANextState s
    rw [Nat.succ_add, run_succ _ hu]
    exact ih ((run_succ k hu).symm.trans h)

/-! ### The start of an operation and its wait -/

/-- A record that starts an operation and one framer step bring a ready block into the wait (R161 to
R164). -/
theorem run_start {s : State} {c : Command} {es : List Event} {op : POp} {frame : ByteString}
    (he : s.events = .command c :: .framer :: es) (hs : Starts c op frame)
    (hv : s.catStatus = .valid) (hns : s.pState ≠ .sent) (hnw : s.pState ≠ .awaitingResponse) :
    Host.Core.run Sys2Proof.core 2 s =
      .next (enterWait (start op frame c.timeout { s with events := es })) := by
  rw [run_succ 1 (step_command_of_ready he hs hv hns hnw)]
  exact run_one (step_framer_of_done rfl (fetchFramer_of_sent rfl))

/-! ### The bytes of a line -/

/-- In the wait a complete line leaves nothing of LINEBUF and of the last response. -/
theorem lineDone_ignores_lineBuf_response {s : State} (hp : s.pState = .awaitingResponse)
    (line buf : ByteString) (r : Option Response) :
    lineDone line { s with lineBuf := buf, response := r } = lineDone line s := by
  cases hc : classify s.params.tokenPriority s.pOp line with
  | success => rw [lineDone_of_success hp hc]; exact lineDone_of_success hp hc
  | error => rw [lineDone_of_error hp hc]; exact lineDone_of_error hp hc
  | nonDecisive => rw [lineDone_of_nonDecisive hp hc]; exact lineDone_of_nonDecisive hp hc

/-- The framer reads a whole line: each byte joins LINEBUF, and the LF ends the line (R165, R166,
R176). -/
theorem run_line {s : State} {line rest : ByteString} {es : List Event}
    (hp : s.pState = .awaitingResponse) (hlf : lf ∉ line) (hr : s.rx = line ++ lf :: rest)
    (he : s.events = List.replicate (line.length + 1) Event.framer ++ es)
    (hcap : ∀ cap, s.params.lineBufCap = some cap → s.lineBuf.length + line.length ≤ cap) :
    Host.Core.run Sys2Proof.core (line.length + 1) s =
      .next (lineDone (s.lineBuf ++ line) { s with events := es, rx := rest }) := by
  induction line generalizing s with
  | nil =>
    rw [List.append_nil]
    exact run_one (step_framer_of_lf he hp hr)
  | cons b line ih =>
    have hb : b ≠ lf := fun hb => hlf (hb ▸ List.mem_cons_self)
    have hroom : s.params.lineBufCap ≠ some s.lineBuf.length := fun hfull => by
      have hle := hcap _ hfull
      rw [List.length_cons] at hle
      omega
    have hstep := (byteJoinsTheLineOrOverflows s b _ _ hp he hr hb).1 hroom
    have hline := ih (s := { s with
        events := List.replicate (line.length + 1) .framer ++ es, rx := line ++ lf :: rest,
        lineBuf := s.lineBuf ++ [b], response := none })
      hp (fun h => hlf (List.mem_cons_of_mem b h)) rfl rfl (fun cap hc => by
        have hle := hcap cap hc
        simp only [List.length_append, List.length_cons, List.length_nil] at hle ⊢
        omega)
    rw [List.append_assoc, List.singleton_append] at hline
    refine ((run_succ _ hstep).trans hline).trans (congrArg _ ?_)
    exact lineDone_ignores_lineBuf_response (s := { s with events := es, rx := rest }) hp _ _ _

/-- Settles O41: the framer reads the line, and its class decides. -/
theorem wholeLineIsReadInArrivalOrder : Obligations.WholeLineIsReadInArrivalOrder := by
  intro s line rest es hp hlf hr he hcap
  rw [List.append_assoc] at hr
  rw [run_line hp hlf hr he hcap]
  exact ⟨fun hc => congrArg _ (lineDone_of_success hp hc),
    fun hc => congrArg _ (lineDone_of_error hp hc),
    fun hc => congrArg _ (lineDone_of_nonDecisive hp hc)⟩

/-- Settles O42: the operation starts, the peer's line arrives, and the framer reads it. -/
theorem answeredTransferSucceeds : Obligations.AnsweredTransferSucceeds := by
  intro s data line timeout es hv hns hnw hl hcap hlf htok hpri he
  have hrun := run_start he (.data rfl hl) hv hns hnw
  have hline : Host.Core.run Sys2Proof.core 3 s = _ :=
    (run_add 1 hrun).trans (run_one (peerStepsMoveStreamBytesOnly.2 _ _ _ rfl))
  rw [show line.length + 4 = 3 + (line.length + 1) by omega, run_add _ hline,
    run_line (rest := []) rfl hlf rfl rfl (by simp [hcap])]
  exact congrArg _
    (lineDone_of_success rfl ((classify_success_iff_substring _ _ _).mpr ⟨htok, hpri⟩))

/-! ### The ticks of a wait -/

/-- Before the deadline a wait only counts its ticks (R168). -/
theorem run_ticks_before_deadline {s : State} {n : Nat} {es : List Event}
    (hp : s.pState = .awaitingResponse) (hresp : s.response = none)
    (he : s.events = List.replicate n Event.tick ++ es) (hn : s.elapsed + n < max s.timeoutT 1) :
    Host.Core.run Sys2Proof.core n s = .next { s with events := es, elapsed := s.elapsed + n } := by
  induction n generalizing s with
  | zero =>
    have hes : s.events = es := he
    simp [← hes]
  | succ n ih =>
    have hcons : s.events = .tick :: (List.replicate n .tick ++ es) := he
    have hstep := (tickCountsTowardsTheTimeout s _ hp hcons).1 (by omega)
    have hticks := ih (s := { s with
        events := List.replicate n .tick ++ es, elapsed := s.elapsed + 1, response := none })
      hp rfl rfl (show s.elapsed + 1 + n < max s.timeoutT 1 by omega)
    rw [run_succ n hstep]
    simpa only [hresp, Nat.add_assoc, Nat.add_comm 1 n] using hticks

/-- The tick that reaches the deadline ends the wait (R168). -/
theorem run_ticks_to_deadline {s : State} {n : Nat} {es : List Event}
    (hp : s.pState = .awaitingResponse) (hresp : s.response = none)
    (he : s.events = List.replicate n Event.tick ++ es) (hlt : s.elapsed < max s.timeoutT 1)
    (hn : s.elapsed + n = max s.timeoutT 1) :
    Host.Core.run Sys2Proof.core n s =
      .next (finish .timedOut { s with events := es, elapsed := s.elapsed + n }) := by
  obtain ⟨m, rfl⟩ : ∃ m, n = m + 1 := ⟨n - 1, by omega⟩
  rw [List.replicate_succ', List.append_assoc] at he
  rw [run_add 1 (run_ticks_before_deadline hp hresp he (by omega)), run_one]
  exact (tickCountsTowardsTheTimeout
    { s with events := .tick :: es, elapsed := s.elapsed + m } es hp rfl).2
    (show s.timeoutT ≤ s.elapsed + m + 1 by omega)

/-- Settles O43: the operation starts, and its ticks count to the deadline. -/
theorem unansweredOperationTimesOutAtItsTick :
    Obligations.UnansweredOperationTimesOutAtItsTick := by
  intro s c op frame n es hop hv hns hnw he
  have hs : Starts c op frame := by
    rcases hop with ⟨hop, hl, rfl, rfl⟩ | ⟨hop, rfl, rfl⟩
    · exact .data hop hl
    · exact .reset hop
  rw [Nat.add_comm n 2, run_add n (run_start he hs hv hns hnw)]
  refine ⟨fun hlt => ?_, fun heq => ?_⟩
  · have hn : 0 + n < max c.timeout 1 := by omega
    rw [run_ticks_before_deadline rfl rfl rfl hn]
    simp only [enterWait_elapsed, Nat.zero_add]
    rfl
  · have hn : 0 + n = max c.timeout 1 := by omega
    have hpos : 0 < max c.timeout 1 := by omega
    rw [run_ticks_to_deadline rfl rfl rfl hpos hn]
    simp only [enterWait_elapsed, Nat.zero_add]
    rfl

/-! ### The end of every wait -/

/-- The operation has ended (R169). -/
def Ended (s : State) : Prop :=
  s.pState = .completedSuccess ∨ (∃ msg, s.pState = .completedError msg) ∨ s.pState = .timedOut

/-- The wait of `s` goes on in `t`, with `n` ticks counted between them. -/
structure WaitGoesOn (s t : State) (n : Nat) : Prop where
  pState : t.pState = .awaitingResponse
  timeoutT : t.timeoutT = s.timeoutT
  elapsed : t.elapsed = s.elapsed + n
  events : t.events = s.events.tail

/-- A step that is neither a tick nor a block reset ends the wait or leaves it and its count as they
are: a second operation is refused, and the framer reads its line (R166, R171). -/
theorem wait_of_step_of_not_tick {s t : State} (hp : s.pState = .awaitingResponse)
    (htick : s.events.head? ≠ some .tick) (hreset : s.events.head? ≠ some .blockReset)
    (h : step s = .next t) : Ended t ∨ WaitGoesOn s t 0 := by
  cases step_effect h with
  | start _ _ _ _ _ _ _ _ hnw => exact absurd hp hnw
  | tick he => exact absurd he htick
  | blockReset he => exact absurd he hreset
  | enterWait _ hsent => exact absurd (hp.symm.trans hsent) (by decide)
  | takeByte b rest =>
    rcases takeByte_cases b rest (consumeEvent s) with ⟨_, e⟩ | ⟨_, e⟩ <;> rw [e]
    · exact .inr ⟨hp, rfl, rfl, rfl⟩
    · exact .inr ⟨hp, rfl, rfl, rfl⟩
  | line rest =>
    rcases lineDone_cases s.lineBuf (popLf rest (consumeEvent s)) with
      ⟨hn, _⟩ | ⟨_, _, e⟩ | ⟨_, _, e⟩ | ⟨_, _, e⟩
    · exact absurd hp hn
    · rw [e]; exact .inl (.inl rfl)
    · rw [e]; exact .inl (.inr (.inl ⟨_, rfl⟩))
    · rw [e]; exact .inr ⟨hp, rfl, rfl, rfl⟩
  | quiet | reply | refuse | peerTake | peerSend => exact .inr ⟨hp, rfl, rfl, rfl⟩

/-- A tick ends the wait, or counts and leaves the deadline ahead (R168). -/
theorem wait_of_tick {s t : State} {es : List Event} (hp : s.pState = .awaitingResponse)
    (he : s.events = .tick :: es) (h : step s = .next t) :
    Ended t ∨ (WaitGoesOn s t 1 ∧ s.elapsed + 1 < s.timeoutT) := by
  have hes : es = s.events.tail := by rw [he]; rfl
  rcases Nat.lt_or_ge (s.elapsed + 1) s.timeoutT with hlt | hge
  · cases ((tickCountsTowardsTheTimeout s es hp he).1 hlt).symm.trans h
    exact .inr ⟨⟨hp, rfl, rfl, hes⟩, hlt⟩
  · cases ((tickCountsTowardsTheTimeout s es hp he).2 hge).symm.trans h
    exact .inl (.inr (.inr rfl))

/-- In the wait, every step but a block reset ends the operation or counts the tick it is, and leaves
the deadline ahead (R160, R168, R177). -/
theorem wait_of_step {s t : State} {e : Event} {es : List Event} (hp : s.pState = .awaitingResponse)
    (he : s.events = e :: es) (hreset : e ≠ .blockReset) (hlt : s.elapsed < max s.timeoutT 1)
    (h : step s = .next t) :
    Ended t ∨ (WaitGoesOn s t ([e].count .tick) ∧ t.elapsed < max t.timeoutT 1) := by
  have hhead : s.events.head? = some e := by rw [he]; rfl
  by_cases htick : e = .tick
  · subst htick
    refine (wait_of_tick hp he h).imp_right fun ⟨hw, hd⟩ => ⟨hw, ?_⟩
    rw [hw.elapsed, hw.timeoutT]
    omega
  · have hcount : [e].count .tick = 0 := by simp [htick]
    rw [hcount]
    have hheadTick : s.events.head? ≠ some .tick := by simp [hhead, htick]
    have hheadReset : s.events.head? ≠ some .blockReset := by simp [hhead, hreset]
    refine (wait_of_step_of_not_tick hp hheadTick hheadReset h).imp_right fun hw => ⟨hw, ?_⟩
    rw [hw.elapsed, hw.timeoutT]
    exact hlt

/-- A wait whose deadline lies ahead has ended once the ticks left to it are gone (R177). -/
theorem wait_ends_of_ticks {s : State} {k : Nat} (hp : s.pState = .awaitingResponse)
    (hlt : s.elapsed < max s.timeoutT 1) (hk : k ≤ s.events.length)
    (hreset : Event.blockReset ∉ s.events.take k)
    (hticks : max s.timeoutT 1 ≤ s.elapsed + (s.events.take k).count .tick) :
    ∃ j ≤ k, ∃ t, Host.Core.run Sys2Proof.core j s = .next t ∧ Ended t := by
  induction k generalizing s with
  | zero =>
    rw [List.take_zero, List.count_nil] at hticks
    omega
  | succ k ih =>
    obtain ⟨t, ht⟩ := everyStepHasANextState s
    obtain ⟨e, es, he⟩ := List.exists_cons_of_length_pos (Nat.lt_of_lt_of_le k.succ_pos hk)
    rw [he, List.take_succ_cons, List.mem_cons, not_or] at hreset
    obtain ⟨hne, hrest⟩ := hreset
    rcases wait_of_step hp he (Ne.symm hne) hlt ht with hend | ⟨hw, hlt'⟩
    · exact ⟨1, by omega, t, run_one ht, hend⟩
    · have hes : t.events = es := by rw [hw.events, he]; rfl
      have hk' : k ≤ t.events.length := by
        rw [he, List.length_cons] at hk
        rw [hes]
        omega
      have hticks' : max t.timeoutT 1 ≤ t.elapsed + (t.events.take k).count .tick := by
        rw [he, List.take_succ_cons, ← List.singleton_append, List.count_append] at hticks
        rw [hw.elapsed, hw.timeoutT, hes]
        omega
      obtain ⟨j, hj, u, hu, hend⟩ := ih hw.pState hlt' hk' (hes ▸ hrest) hticks'
      exact ⟨j + 1, by omega, u, (run_succ j ht).trans hu, hend⟩

/-- Settles O44: at the start of the wait its whole time lies ahead. -/
theorem everyWaitEndsWithinItsTicks : Obligations.EveryWaitEndsWithinItsTicks := by
  intro s k hp h0 hk hreset hticks
  exact wait_ends_of_ticks hp (by omega) hk hreset (by omega)

end Sys2Proof.Machine
end

section
/-! A step that answers a refusal is that refusal and nothing else (R208), and a halted block writes no
byte to TX (R204). -/

namespace Sys2Proof.Machine

/-! ### Which operations can answer a refusal -/

/-- The record of an ended operation is a result: an operation ends in no refusal (R169). -/
theorem finish_response_ne_refused (p : PState) (s : State) (reason : RefuseReason) :
    (finish p s).response ≠ some (.refused reason) := by
  cases p <;> simp [outcome]

theorem tick_response_ne_refused (s : State) (reason : RefuseReason) :
    (tick s).response ≠ some (.refused reason) := by
  rcases tick_cases s with ⟨_, e⟩ | ⟨_, _, e⟩ | ⟨_, _, e⟩ <;> rw [e]
  · simp
  · exact finish_response_ne_refused _ _ reason
  · simp

theorem lineDone_response_ne_refused (line : ByteString) (s : State) (reason : RefuseReason) :
    (lineDone line s).response ≠ some (.refused reason) := by
  rcases lineDone_cases line s with ⟨_, e⟩ | ⟨_, _, e⟩ | ⟨_, _, e⟩ | ⟨_, _, e⟩ <;> rw [e]
  · simp
  · exact finish_response_ne_refused _ _ reason
  · exact finish_response_ne_refused _ _ reason
  · simp

/-- The only refusal a read byte can meet is that of a full LINEBUF, which leaves it in RX (R172). -/
theorem takeByte_eq_refuse_of_response {b : Byte} {rest : ByteString} {s : State}
    {reason : RefuseReason} (hr : (takeByte b rest s).response = some (.refused reason)) :
    takeByte b rest s = refuse reason s := by
  rcases takeByte_cases b rest s with ⟨_, e⟩ | ⟨_, e⟩ <;> rw [e] at hr ⊢
  · cases hr; rfl
  · cases hr

/-- A refusal is the whole effect of its step: the event goes, REFUSED is set, the host is told. -/
theorem step_eq_refuse_of_response {s t : State} {reason : RefuseReason} (h : step s = .next t)
    (hr : t.response = some (.refused reason)) : t = refuse reason (consumeEvent s) := by
  cases step_effect h with
  | refuse reason' => cases hr; rfl
  | takeByte b rest => exact takeByte_eq_refuse_of_response hr
  | tick => exact absurd hr (tick_response_ne_refused _ reason)
  | line rest => exact absurd hr (lineDone_response_ne_refused _ _ reason)
  | blockReset _ ha => rw [resetBlock_of_admissible (consumeEvent s) ha] at hr; cases hr
  | quiet | reply | start | peerTake | peerSend | enterWait => cases hr

/-- Settles O50: the step of a refusal is `refuse` on the state that has the event consumed. -/
theorem refusalChangesNothingElse : Obligations.RefusalChangesNothingElse :=
  fun _ _ _ => step_eq_refuse_of_response

/-! ### TX of a halted block -/

/-- A step of a halted block starts no operation, so TX only loses bytes from its front (R204). -/
theorem step_tx_suffix_of_halted {s t : State} (hc : s.catStatus ≠ .valid) (h : step s = .next t) :
    t.tx <:+ s.tx := by
  cases step_effect h
  case start hv _ _ => exact absurd hv hc
  case peerTake n => exact List.drop_suffix n s.tx
  all_goals simp

theorem StateInv.tx_suffix_of_reaches_of_halted {s t : State} (hi : StateInv s)
    (hc : s.catStatus ≠ .valid) (h : Reaches s t) : t.tx <:+ s.tx := by
  induction h with
  | refl => exact List.suffix_refl _
  | @tail u v hsu huv ih =>
    have hcu : u.catStatus ≠ .valid := by rwa [hi.catStatus_of_reaches hsu]
    exact (step_tx_suffix_of_halted hcu huv).trans ih

/-- Settles O53: a run keeps CAT_STATUS, the invariant holds a halted block in Idle, and no step of it
writes TX. -/
theorem haltedBlockWritesNoFrame : Obligations.HaltedBlockWritesNoFrame := by
  intro s t hi hc h
  have hcat : t.catStatus = s.catStatus := hi.catStatus_of_reaches h
  exact ⟨hcat, (hi.of_reaches h).halted (hcat ▸ hc), hi.tx_suffix_of_reaches_of_halted hc h⟩

end Sys2Proof.Machine
end
